-- ==== Sys2Proof/Word.lean ====
section
/-! DEFINITION. The machine's one data width: a cell, an address, an operand byte and the pc are all
one unsigned byte (00_scope.md section 5; 10_state.md R21). -/

namespace Sys2Proof

/-- A byte (the spec's "cell"): an unsigned integer 0..255, arithmetic modulo 256 (R21). -/
abbrev Byte := BitVec 8

end Sys2Proof
end

