-- ==== Sys2Proof/Config.lean ====
section
/-! DEFINITION. What is fixed for the machine: the sizes (00_scope.md R5) and the three numberings that
R6 makes named parameters of the model. The machine is deterministic and total (93, Part 1), so there
is no free value here. -/

namespace Sys2Proof

/-- MEM_SIZE (R5): 256 cells. -/
def Config.memSize : Nat := 256

/-- NUM_REGS (R5): the register file has 8 cells of storage. -/
def Config.numRegs : Nat := 8

/-- NUM_USABLE_REGS (R5): indices 0..6 are valid operands. -/
def Config.numUsableRegs : Nat := 7

/-- INSTR_LEN (R5): an instruction is 5 bytes. -/
def Config.instrLen : Nat := 5

/-- The 14 opcode names, the domain of `OPC` (R6, R52). -/
inductive Opcode where
  | crash | print | add | sub | mul | div | mod | jump | cmp | and | or | ifOp | call | move
  deriving DecidableEq, Repr

/-- The 14 opcode names, in the order of R52's table. -/
def Opcode.all : List Opcode :=
  [.crash, .print, .add, .sub, .mul, .div, .mod, .jump, .cmp, .and, .or, .ifOp, .call, .move]

/-- The 4 addressing-mode names, the domain of `MODE` (R6, R49). -/
inductive Mode where
  | const | reg | memC | memR
  deriving DecidableEq, Repr

/-- The 4 addressing-mode names, in the order of R50's table. -/
def Mode.all : List Mode := [.const, .reg, .memC, .memR]

/-- The 7 fault names, the domain of `FAULTCODE` (R6, R120). -/
inductive FaultName where
  | explicitCrash | outOfInstructions | hitZero | badRegister
  | unknownAddressingMode | assignToConstant | unknownInstruction
  deriving DecidableEq, Repr

/-- The three numberings of R6. The spec's defaults are `defaultNumbering` (Decode.lean); everything
that reads or writes an encoding takes a numbering as an argument, so that a claim can be made for
all of them. -/
structure Numbering where
  /-- `OPC`: the opcode byte of each of the 14 opcodes. -/
  opc : Opcode → Byte
  /-- `MODE`: the mode byte of each of the 4 addressing modes. -/
  mode : Mode → Byte
  /-- `FAULTCODE`: the 3-bit code of each of the 7 faults on the fault port (R139). -/
  faultCode : FaultName → BitVec 3

/-- What R6 asks of the numberings: each map is injective, and `OPC(CRASH) = 0`. The code 0 is "no
fault" on the fault port (R122), so no fault has it. -/
structure Numbering.Lawful (n : Numbering) : Prop where
  opc_injective : ∀ a b, n.opc a = n.opc b → a = b
  mode_injective : ∀ a b, n.mode a = n.mode b → a = b
  faultCode_injective : ∀ a b, n.faultCode a = n.faultCode b → a = b
  opc_crash : n.opc .crash = 0
  faultCode_ne_zero : ∀ f, n.faultCode f ≠ 0

end Sys2Proof
end

