-- ==== Sys2Proof/Syntax.lean ====
section
/-! DEFINITION. The instruction set as syntax (30_encoding.md): the 5-byte window, the operands and the
14 instructions, one constructor per row of opcode_table.json. -/

namespace Sys2Proof

/-- The 5 bytes `I[0..4]` of an instruction, at ascending addresses (R45). -/
structure Window where
  op : Byte
  mode1 : Byte
  byte1 : Byte
  mode2 : Byte
  byte2 : Byte
  deriving DecidableEq, Repr

/-- An operand: a (mode, byte) pair. The operand byte is used exactly as fetched (R48), so a register
index may be any byte, and the resolver checks it. A mode byte outside `MODE` is no fault until
the instruction resolves the operand (R49, R55), so it is syntax as well. -/
inductive Operand where
  /-- CONST: the value is the operand byte. -/
  | const (value : Byte)
  /-- REG: the register with this index. -/
  | reg (index : Byte)
  /-- MEM_C: the memory cell at this address. -/
  | memC (address : Byte)
  /-- MEM_R: the memory cell whose address is in the register with this index. -/
  | memR (index : Byte)
  /-- A mode byte that is none of the four values of `MODE`, with the operand byte beside it. -/
  | unknown (mode operand : Byte)
  deriving DecidableEq, Repr

/-- The 14 instructions (R52), with the operands each one uses (R53). In a binary operation operand 1
is `src` and operand 2 is `dest`. An operand an instruction does not use is not part of it: its two
bytes are ignored (R56). -/
inductive Instr where
  | crash
  | print (src : Operand)
  | add (src dest : Operand)
  | sub (src dest : Operand)
  | mul (src dest : Operand)
  | div (src dest : Operand)
  | mod (src dest : Operand)
  | jump (src : Operand)
  | cmp (src dest : Operand)
  | and (src dest : Operand)
  | or (src dest : Operand)
  /-- IF, the source's Conditional-If: a reserved no-op (R57). -/
  | ifOp
  /-- CALL: a reserved no-op (R57). -/
  | call
  | move (src dest : Operand)
  deriving DecidableEq, Repr

/-- Why a window is no instruction: its opcode byte is not one of the 14 values of `OPC` (R54). It is
the only reason there is (R62). -/
inductive DecodeError where
  | unknownOpcode (opcode : Byte)
  deriving DecidableEq, Repr

end Sys2Proof
end

