-- ==== Sys2Proof/WellFormed.lean ====
section
/-! DEFINITION. Well-formed instructions: the terms that stand for some 5 bytes. Every operand byte is
legal in every position (R48, R55, R56), so there is one check: an operand whose mode is given as
unknown must have a mode byte that is none of the four values of `MODE` (R55). -/

namespace Sys2Proof

/-- The one check on an operand (R49, R55). -/
def Operand.wf (n : Numbering) : Operand → Bool
  | .const _ => true
  | .reg _ => true
  | .memC _ => true
  | .memR _ => true
  | .unknown m _ => Mode.all.all fun k => n.mode k != m

/-- An instruction is well formed when each operand it uses is. -/
def Instr.wf (n : Numbering) : Instr → Bool
  | .crash => true
  | .print a => a.wf n
  | .add a b => a.wf n && b.wf n
  | .sub a b => a.wf n && b.wf n
  | .mul a b => a.wf n && b.wf n
  | .div a b => a.wf n && b.wf n
  | .mod a b => a.wf n && b.wf n
  | .jump a => a.wf n
  | .cmp a b => a.wf n && b.wf n
  | .and a b => a.wf n && b.wf n
  | .or a b => a.wf n && b.wf n
  | .ifOp => true
  | .call => true
  | .move a b => a.wf n && b.wf n

end Sys2Proof
end

