-- ==== Sys2Proof/Decode.lean ====
section
/-! DEFINITION. The default numberings, the decoder, total on any 5 bytes, and the encoder
(30_encoding.md). Decoder and encoder take the numbering (00_scope.md R6) as an argument. -/

namespace Sys2Proof

/-- The default numbering: the spec's decisions D1, D2 and D3 (R50, R52, R122). Only `OPC(CRASH) = 0` is
the source's. (Log 4, 5, 6.) -/
def defaultNumbering : Numbering where
  opc
    | .crash => 0
    | .print => 1
    | .add => 2
    | .sub => 3
    | .mul => 4
    | .div => 5
    | .mod => 6
    | .jump => 7
    | .cmp => 8
    | .and => 9
    | .or => 10
    | .ifOp => 11
    | .call => 12
    | .move => 13
  mode
    | .const => 0
    | .reg => 1
    | .memC => 2
    | .memR => 3
  faultCode
    | .explicitCrash => 1
    | .outOfInstructions => 2
    | .hitZero => 3
    | .badRegister => 4
    | .unknownAddressingMode => 5
    | .assignToConstant => 6
    | .unknownInstruction => 7

/-- The opcode with this byte: the whole byte is compared with the 14 values of `OPC` (R46, R51). -/
def opcodeOf (n : Numbering) (b : Byte) : Option Opcode :=
  Opcode.all.find? fun o => n.opc o == b

/-- The addressing mode with this byte: the whole byte is compared with the 4 values of `MODE`
(R46, R49). -/
def modeOf (n : Numbering) (b : Byte) : Option Mode :=
  Mode.all.find? fun m => n.mode m == b

/-- An operand from its mode byte and its operand byte (R48, R49, R50). -/
def decodeOperand (n : Numbering) (m b : Byte) : Operand :=
  match modeOf n m with
  | some .const => .const b
  | some .reg => .reg b
  | some .memC => .memC b
  | some .memR => .memR b
  | none => .unknown m b

/-- The instruction of an opcode and its two operand fields; an opcode takes the fields it uses
(R53) and ignores the others (R56, the spec's decision D8; log 10). -/
def instrOf : Opcode → Operand → Operand → Instr
  | .crash, _, _ => .crash
  | .print, a, _ => .print a
  | .add, a, b => .add a b
  | .sub, a, b => .sub a b
  | .mul, a, b => .mul a b
  | .div, a, b => .div a b
  | .mod, a, b => .mod a b
  | .jump, a, _ => .jump a
  | .cmp, a, b => .cmp a b
  | .and, a, b => .and a b
  | .or, a, b => .or a b
  | .ifOp, _, _ => .ifOp
  | .call, _, _ => .call
  | .move, a, b => .move a b

/-- The decoder. It looks at nothing but the opcode byte to select the instruction (R51), and refuses by
name a byte that is not in `OPC` (R54). -/
def decodeWith (n : Numbering) (w : Window) : Except DecodeError Instr :=
  match opcodeOf n w.op with
  | some op =>
    .ok (instrOf op (decodeOperand n w.mode1 w.byte1) (decodeOperand n w.mode2 w.byte2))
  | none => .error (.unknownOpcode w.op)

/-- The decoder with the default numbering. -/
def decode (w : Window) : Except DecodeError Instr :=
  decodeWith defaultNumbering w

/-- The opcode of an instruction (R52). -/
def opcodeName : Instr → Opcode
  | .crash => .crash
  | .print _ => .print
  | .add _ _ => .add
  | .sub _ _ => .sub
  | .mul _ _ => .mul
  | .div _ _ => .div
  | .mod _ _ => .mod
  | .jump _ => .jump
  | .cmp _ _ => .cmp
  | .and _ _ => .and
  | .or _ _ => .or
  | .ifOp => .ifOp
  | .call => .call
  | .move _ _ => .move

/-- Operand 1, where the instruction uses it (R53). -/
def operand1 : Instr → Option Operand
  | .crash => none
  | .print a => some a
  | .add a _ => some a
  | .sub a _ => some a
  | .mul a _ => some a
  | .div a _ => some a
  | .mod a _ => some a
  | .jump a => some a
  | .cmp a _ => some a
  | .and a _ => some a
  | .or a _ => some a
  | .ifOp => none
  | .call => none
  | .move a _ => some a

/-- Operand 2, where the instruction uses it (R53). -/
def operand2 : Instr → Option Operand
  | .crash => none
  | .print _ => none
  | .add _ b => some b
  | .sub _ b => some b
  | .mul _ b => some b
  | .div _ b => some b
  | .mod _ b => some b
  | .jump _ => none
  | .cmp _ b => some b
  | .and _ b => some b
  | .or _ b => some b
  | .ifOp => none
  | .call => none
  | .move _ b => some b

/-- The mode byte of an operand field; a field the instruction does not use is written as 0 (R60, the
spec's decision D11; log 10). -/
def encodeMode (n : Numbering) : Option Operand → Byte
  | none => 0
  | some (.const _) => n.mode .const
  | some (.reg _) => n.mode .reg
  | some (.memC _) => n.mode .memC
  | some (.memR _) => n.mode .memR
  | some (.unknown m _) => m

/-- The operand byte of an operand field; a field the instruction does not use is written as 0. -/
def encodeByte : Option Operand → Byte
  | none => 0
  | some (.const b) => b
  | some (.reg b) => b
  | some (.memC b) => b
  | some (.memR b) => b
  | some (.unknown _ b) => b

/-- The encoder: the 5 bytes of a well-formed instruction (R45, R50, R52). -/
def encodeWith (n : Numbering) (i : Instr) : Window where
  op := n.opc (opcodeName i)
  mode1 := encodeMode n (operand1 i)
  byte1 := encodeByte (operand1 i)
  mode2 := encodeMode n (operand2 i)
  byte2 := encodeByte (operand2 i)

/-- The encoder with the default numbering. -/
def encode (i : Instr) : Window :=
  encodeWith defaultNumbering i

/-- The window of a table word. opcode_table.json numbers an instruction's 40 bits from 39, the most
significant bit of `I[0]`, down to 0, the least significant bit of `I[4]` (R45; log 18). `nbits`
below 40 gives the leading bits, and the bits after them are 0. -/
def tableWindow (nbits w : Nat) : Window :=
  let v := w * 2 ^ (40 - nbits)
  { op := BitVec.ofNat 8 (v / 2 ^ 32)
    mode1 := BitVec.ofNat 8 (v / 2 ^ 24)
    byte1 := BitVec.ofNat 8 (v / 2 ^ 16)
    mode2 := BitVec.ofNat 8 (v / 2 ^ 8)
    byte2 := BitVec.ofNat 8 v }

/-- What the decoder reads from a table word; `none` where it refuses. -/
def decodeTableWord (nbits w : Nat) : Option Instr :=
  match decode (tableWindow nbits w) with
  | .ok i => some i
  | .error _ => none

end Sys2Proof
end

