-- ==== Sys2Proof/Machine/State.lean ====
section
/-! DEFINITION. The state, the faults and the refusals, and the state after reset (10_state.md;
60_exceptions.md section 1). -/

namespace Sys2Proof.Machine

/-- The seven faults (R120, R123), with the information each records. A fault ends the step that raises
it and is handed to the host, and the machine goes on at the next instruction when the host steps
again (R126, R129). So no step answers `Outcome.fault`: a step that raises a fault answers `next`, with
the fault on the fault port of the next state (log 1). That is safe in this sense: nothing is claimed
to stop that the machine would run, and the state a faulting step leaves is the one R126 gives. -/
inductive Fault where
  /-- Raised by CRASH, always (R111). Safe: it is the effect the spec gives. -/
  | explicitCrash
  /-- Raised by nothing; the source's taxonomy holds it (R140; log 23). Safe. -/
  | outOfInstructions
  /-- Raised by DIV and MOD when the source value is 0 (R94, R95; the spec's decision D6, log 8).
  Safe: a fault invents no value. -/
  | hitZero
  /-- Raised by the resolver for a register index of 7 or more (R68, R70, R73, R75). Safe. -/
  | badRegister (index : Byte)
  /-- Raised by the resolver for a mode byte that is not in `MODE` (R55). Safe. -/
  | unknownAddressingMode
  /-- Raised by a write whose destination is a constant (R72, R90). Safe. -/
  | assignToConstant
  /-- Raised by the dispatcher for an opcode byte that is not in `OPC`, with that byte and the start
  address of the instruction (R54, R83, R85). Safe. -/
  | unknownInstruction (opcode address : Byte)
  deriving DecidableEq, Repr

/-- Why the model gives an instruction no meaning. -/
inductive Refusal where
  /-- Raised by an arm of `exec` whose instruction has no meaning yet; there is none. Safe: nothing is
  claimed of it. -/
  | notModelled (mnemonic : String)
  deriving DecidableEq, Repr

/-- Memory as data: (address, byte) pairs at strictly rising addresses, none of them the byte an unlisted
address reads as (`Memory.wf`). -/
abbrev Memory := List Host.Cell

/-- The state. `mem`, `regs` and `pc` are the spec's whole state, the triple `(M, x, pc)` (R7). The two
outputs of a step (R23) stand beside it, because a step of the host's interface answers a state and
nothing else (log 2), and so do the two histories that R23 lets a model keep (log 3). No step reads
any of the four. -/
structure State where
  /-- `M`: 256 cells of 8 bits (R10). -/
  mem : Memory
  /-- `x`: 8 registers of 8 bits; index 7 exists in storage and no instruction reaches it (R12, R13). -/
  regs : Vector Byte 8
  /-- `pc`, the instruction pointer (R15). -/
  pc : Byte
  /-- The character output: the byte the last step emitted, if it emitted one (R107). -/
  charOut : Option Byte
  /-- The fault output: the fault the last step ended with, if it ended with one (R139). -/
  faultOut : Option Fault
  /-- The host's list of the bytes emitted since reset, oldest first (R23). -/
  emitted : List Byte
  /-- The host's list of the faults raised since reset, oldest first (R23). -/
  faults : List Fault
  deriving DecidableEq, Repr

/-- The state right after reset: all memory, all eight registers and `pc` are 0, and both outputs are
idle (R22, R150). The histories start empty (log 3). -/
def State.reset : State where
  mem := []
  regs := Vector.replicate 8 0
  pc := 0
  charOut := none
  faultOut := none
  emitted := []
  faults := []

end Sys2Proof.Machine
end

