-- ==== Sys2Proof/Machine/Ops.lean ====
section
/-! DEFINITION. The named operations over memory, registers, `pc` and the two outputs; raising a fault;
the fetch; the load; the fault port. The machine has no trap handler, so there is no return from an
exception to model (60_exceptions.md R129). -/

namespace Sys2Proof.Machine

/-- What an address that memory does not list reads as: 0, the reset value of every cell (R11, R22;
log 17). -/
def unlistedByte : Byte := 0

/-- The byte at an address. -/
def Memory.lookup : Memory → Nat → Byte
  | [], _ => unlistedByte
  | (k, w) :: rest, a => if k = a then w else Memory.lookup rest a

/-- One more cell in front of a memory; a byte that an unlisted address reads as is not listed. -/
def Memory.prepend (a : Nat) (v : Byte) (m : Memory) : Memory :=
  if v = unlistedByte then m else (a, v) :: m

/-- Memory with the byte at an address replaced, in canonical form. -/
def Memory.store : Memory → Nat → Byte → Memory
  | [], a, v => Memory.prepend a v []
  | (k, w) :: rest, a, v =>
    if a < k then Memory.prepend a v ((k, w) :: rest)
    else if a = k then Memory.prepend a v rest
    else (k, w) :: Memory.store rest a v

/-- Canonical from an address on: addresses from `low` up, strictly rising and below 256, and no listed
byte that an unlisted address reads as. -/
def Memory.wfFrom : Nat → Memory → Bool
  | _, [] => true
  | low, (k, w) :: rest =>
    decide (low ≤ k) && decide (k < 256) && decide (w ≠ unlistedByte) && Memory.wfFrom (k + 1) rest

/-- The canonical form of memory. -/
def Memory.wf (m : Memory) : Bool := Memory.wfFrom 0 m

/-- `MemRead(a, 1)`: every byte is an address, so it cannot fault (R33). -/
def memRead (a : Byte) (s : State) : Byte := Memory.lookup s.mem a.toNat

/-- `MemWrite(a, 1, v)`: it cannot fault, and changes that one cell (R34). -/
def memWrite (a v : Byte) (s : State) : State := { s with mem := Memory.store s.mem a.toNat v }

/-- `x[i]` for a usable index (R12). -/
def readReg (i : Fin 7) (s : State) : Byte := s.regs[i.val]

/-- `x[i] <- v` for a usable index (R12). Index 7 is not of this type, so `x[7]` is never written
(R13). -/
def writeReg (i : Fin 7) (v : Byte) (s : State) : State := { s with regs := s.regs.set i.val v }

/-- `pc <- t`. -/
def setPc (t : Byte) (s : State) : State := { s with pc := t }

/-- `emit(v)`: the byte is presented on the character output of this step (R107; log 11), and the
host's history gains it (R23). -/
def emit (v : Byte) (s : State) : State :=
  { s with charOut := some v, emitted := s.emitted ++ [v] }

/-- `raise F(info)`, taking the machine's one kind of exception: the step ends, and the fault is
presented to the host on the fault output (R125, R139) and joins the host's history (R23).
Nothing is saved and control goes nowhere: `pc`, which the step has advanced already, and `M` and
`x` stay as they are (R125, R126). There is no return from it; the next step goes on at `pc` (R129;
log 1). -/
def raise (f : Fault) (s : State) : State :=
  { s with faultOut := some f, faults := s.faults ++ [f] }

/-- The end of an instruction begun in `s`: its state, or the fault it raised, which leaves `s` as it
was but for the report (R77, R126). -/
def complete (s : State) (r : Except Fault State) : Host.Outcome State Fault Refusal :=
  match r with
  | .ok t => .next t
  | .error f => .next (raise f s)

/-- Phase 1 of a step, the fetch: the 5 cells from `pc` on, at addresses modulo 256 (R81, the spec's
decision D5; log 7). -/
def fetch (s : State) : Window where
  op := memRead s.pc s
  mode1 := memRead (s.pc + 1) s
  byte1 := memRead (s.pc + 2) s
  mode2 := memRead (s.pc + 3) s
  byte2 := memRead (s.pc + 4) s

/-- Phase 2 of a step, the advance: `pc <- (pc + 5) mod 256`, whatever the opcode (R82). The outputs
describe one step only, so the new step begins with both idle (R107, R139; log 2). -/
def advance (s : State) : State :=
  { s with pc := s.pc + 5, charOut := none, faultOut := none }

/-- The dispatcher's fall-through arm, in the advanced state: UnknownInstruction with the opcode byte and
the start address, `pc - 5` at report time (R54, R83, R85). -/
def execUnknown (e : DecodeError) (s : State) : Host.Outcome State Fault Refusal :=
  match e with
  | .unknownOpcode op => complete s (.error (.unknownInstruction op (s.pc - 5)))

/-- The 5 bytes of a window stored where the next step fetches them. -/
def placeWindow (w : Window) (s : State) : State :=
  memWrite (s.pc + 4) w.byte2 (memWrite (s.pc + 3) w.mode2 (memWrite (s.pc + 2) w.byte1
    (memWrite (s.pc + 1) w.mode1 (memWrite s.pc w.op s))))

/-- Bytes stored at rising addresses from `a` on. -/
def loadFrom (a : Byte) : List Byte → State → State
  | [], s => s
  | v :: rest, s => loadFrom (a + 1) rest (memWrite a v s)

/-- The host's load: the first `min(256, length)` bytes of the image go to memory from address 0 on.
Every other cell, every register, `pc`, the outputs and the histories stay (R153; log 2, 12). -/
def load (image : List Byte) (s : State) : State :=
  loadFrom 0 (image.take Config.memSize) s

/-- The name of a fault (R120). -/
def faultName : Fault → FaultName
  | .explicitCrash => .explicitCrash
  | .outOfInstructions => .outOfInstructions
  | .hitZero => .hitZero
  | .badRegister _ => .badRegister
  | .unknownAddressingMode => .unknownAddressingMode
  | .assignToConstant => .assignToConstant
  | .unknownInstruction _ _ => .unknownInstruction

/-- The wire `char_valid`: the last step was a PRINT that completed without fault (R107). -/
def charValid (s : State) : Bool := s.charOut.isSome

/-- The wire `fault_valid`: the last step ended with a fault (R139). -/
def faultValid (s : State) : Bool := s.faultOut.isSome

/-- The wires `fault_code`: `FAULTCODE` of the fault, and 0 when there is none (R122, R139). -/
def faultCode (n : Numbering) (s : State) : BitVec 3 :=
  match s.faultOut with
  | some f => n.faultCode (faultName f)
  | none => 0

/-- The wires `fault_info`: the index of BadRegister or the opcode of UnknownInstruction, otherwise 0
(R139). -/
def faultInfo (s : State) : Byte :=
  match s.faultOut with
  | some (.badRegister i) => i
  | some (.unknownInstruction op _) => op
  | _ => 0

/-- The wires `fault_addr`: the address of UnknownInstruction, otherwise 0 (R139). -/
def faultAddr (s : State) : Byte :=
  match s.faultOut with
  | some (.unknownInstruction _ a) => a
  | _ => 0

end Sys2Proof.Machine
end

