-- ==== Sys2Proof/Machine/Flags.lean ====
section
/-! DEFINITION. The machine has no flags, condition codes or predicates (10_state.md R17): the one
comparison outcome is a byte that CMP writes to its destination as data (42_alu.md R98). -/

namespace Sys2Proof.Machine

/-- The outcome of CMP for destination `d` and source `s`, compared as unsigned bytes: 255 if `d > s`, 1
if `d < s`, 0 if they are equal (R98; conflict C2, log 16). -/
def compareCode (d s : Byte) : Byte :=
  if s.toNat < d.toNat then 255 else if d.toNat < s.toNat then 1 else 0

end Sys2Proof.Machine
end

