-- ==== Sys2Proof/Machine/Operands.lean ====
section
/-! DEFINITION. The addressing-mode resolver (40_addressing.md): every operand of every instruction is
read and written here and nowhere else. -/

namespace Sys2Proof.Machine

/-- What an operand names once it is resolved: a value that is no location, a usable register or a
memory cell. -/
inductive Place where
  | value (v : Byte)
  | register (i : Fin 7)
  | cell (a : Byte)
  deriving DecidableEq, Repr

/-- The register-bound check: the whole operand byte is compared with 7 (R68, R78). -/
def regIndex (b : Byte) : Except Fault (Fin 7) :=
  if h : b.toNat < 7 then .ok ⟨b.toNat, h⟩ else .error (.badRegister b)

/-- The part that reading and writing an operand share: the mode is classified first, and the register
bound is checked only for REG and MEM_R (R76). MEM_R takes its address from the register (R70,
R75). -/
def resolve (o : Operand) (s : State) : Except Fault Place :=
  match o with
  | .const b => .ok (.value b)
  | .reg b => do
    let i ← regIndex b
    .ok (.register i)
  | .memC b => .ok (.cell b)
  | .memR b => do
    let i ← regIndex b
    .ok (.cell (readReg i s))
  | .unknown _ _ => .error .unknownAddressingMode

/-- The byte a place holds. -/
def readPlace (p : Place) (s : State) : Byte :=
  match p with
  | .value v => v
  | .register i => readReg i s
  | .cell a => memRead a s

/-- A byte put in a place; a constant is not assignable (R72). -/
def writePlace (p : Place) (v : Byte) (s : State) : Except Fault State :=
  match p with
  | .value _ => .error .assignToConstant
  | .register i => .ok (writeReg i v s)
  | .cell a => .ok (memWrite a v s)

/-- `ReadOperand(m, b)` (R66). It changes nothing. -/
def readOperand (o : Operand) (s : State) : Except Fault Byte := do
  let p ← resolve o s
  .ok (readPlace p s)

/-- `WriteOperand(m, b, v)` (R71): exactly one cell of `x` or `M` changes, or it faults and nothing does
(R77). -/
def writeOperand (o : Operand) (v : Byte) (s : State) : Except Fault State := do
  let p ← resolve o s
  writePlace p v s

/-- Step 3 of a binary operation: a constant destination is not writable (R90). -/
def checkWritable (o : Operand) : Except Fault Unit :=
  match o with
  | .const _ => .error .assignToConstant
  | .reg _ => .ok ()
  | .memC _ => .ok ()
  | .memR _ => .ok ()
  | .unknown _ _ => .ok ()

end Sys2Proof.Machine
end

