-- ==== Sys2Proof/Machine/Alu.lean ====
section
/-! DEFINITION. The eight binary instructions of the 8-bit ALU (42_alu.md): ADD, SUB, MUL, DIV, MOD, CMP,
AND, OR. Each function takes the destination's value first and the source's second, as the rules
write `f(d, s)`. -/

namespace Sys2Proof.Machine

/-- ADD: the sum modulo 256; no carry is recorded (R91). -/
def aluAdd (d s : Byte) : Except Fault Byte := .ok (d + s)

/-- SUB: destination minus source, modulo 256 (R92). -/
def aluSub (d s : Byte) : Except Fault Byte := .ok (d - s)

/-- MUL: the low 8 bits of the unsigned product (R93; log 15). -/
def aluMul (d s : Byte) : Except Fault Byte := .ok (d * s)

/-- DIV: the unsigned quotient, destination by source; a zero source raises HitZero (R94; log 8, 15). -/
def aluDiv (d s : Byte) : Except Fault Byte :=
  if s = 0 then .error .hitZero else .ok (BitVec.ofNat 8 (d.toNat / s.toNat))

/-- MOD: the unsigned remainder, destination by source; a zero source raises HitZero (R95; log 8, 15). -/
def aluMod (d s : Byte) : Except Fault Byte :=
  if s = 0 then .error .hitZero else .ok (BitVec.ofNat 8 (d.toNat % s.toNat))

/-- CMP: the outcome byte (R98). -/
def aluCmp (d s : Byte) : Except Fault Byte := .ok (compareCode d s)

/-- AND: bitwise (R96). -/
def aluAnd (d s : Byte) : Except Fault Byte := .ok (d &&& s)

/-- OR: bitwise (R97). -/
def aluOr (d s : Byte) : Except Fault Byte := .ok (d ||| s)

/-- The common shape of the binary operations (R90): read the source, read the destination, check that
the destination is writable, compute (where DIV and MOD check the divisor), write. The order is
the spec's decision D7 (log 9). -/
def binaryOp (f : Byte → Byte → Except Fault Byte) (src dest : Operand) (s : State) :
    Except Fault State := do
  let a ← readOperand src s
  let d ← readOperand dest s
  checkWritable dest
  let r ← f d a
  writeOperand dest r s

/-- A binary instruction, run after the step's advance of `pc`. -/
def runBinary (f : Byte → Byte → Except Fault Byte) (src dest : Operand) (s : State) :
    Host.Outcome State Fault Refusal :=
  complete s (binaryOp f src dest s)

/-- ADD (R91). -/
def execAdd (src dest : Operand) (s : State) : Host.Outcome State Fault Refusal :=
  runBinary aluAdd src dest s

/-- SUB (R92). -/
def execSub (src dest : Operand) (s : State) : Host.Outcome State Fault Refusal :=
  runBinary aluSub src dest s

/-- MUL (R93). -/
def execMul (src dest : Operand) (s : State) : Host.Outcome State Fault Refusal :=
  runBinary aluMul src dest s

/-- DIV (R94). -/
def execDiv (src dest : Operand) (s : State) : Host.Outcome State Fault Refusal :=
  runBinary aluDiv src dest s

/-- MOD (R95). -/
def execMod (src dest : Operand) (s : State) : Host.Outcome State Fault Refusal :=
  runBinary aluMod src dest s

/-- CMP (R98). -/
def execCmp (src dest : Operand) (s : State) : Host.Outcome State Fault Refusal :=
  runBinary aluCmp src dest s

/-- AND (R96). -/
def execAnd (src dest : Operand) (s : State) : Host.Outcome State Fault Refusal :=
  runBinary aluAnd src dest s

/-- OR (R97). -/
def execOr (src dest : Operand) (s : State) : Host.Outcome State Fault Refusal :=
  runBinary aluOr src dest s

end Sys2Proof.Machine
end

