-- ==== Sys2Proof/Machine/Control.lean ====
section
/-! DEFINITION. Control flow (44_control.md): JUMP, CRASH and the two reserved no-ops IF and CALL. -/

namespace Sys2Proof.Machine

/-- JUMP (R110): `pc` becomes the byte read from operand 1, an absolute address; if the read faults, `pc`
keeps its advanced value. -/
def jumpOp (src : Operand) (s : State) : Except Fault State := do
  let t ← readOperand src s
  .ok (setPc t s)

/-- JUMP (R110). -/
def execJump (src : Operand) (s : State) : Host.Outcome State Fault Refusal :=
  complete s (jumpOp src s)

/-- CRASH (R111): it raises ExplicitCrash, always. -/
def execCrash (s : State) : Host.Outcome State Fault Refusal :=
  complete s (.error .explicitCrash)

/-- IF (R112): a reserved no-op; its whole effect is the step's own advance of `pc`. -/
def execIf (s : State) : Host.Outcome State Fault Refusal :=
  .next s

/-- CALL (R113): a reserved no-op; its whole effect is the step's own advance of `pc`. -/
def execCall (s : State) : Host.Outcome State Fault Refusal :=
  .next s

end Sys2Proof.Machine
end

