-- ==== Sys2Proof/Machine/MovePrint.lean ====
section
/-! DEFINITION. Data movement and output (43_move_print.md): MOVE and PRINT. -/

namespace Sys2Proof.Machine

/-- MOVE (R105): operand 1 is read, then operand 2 is written; the destination is not read. -/
def moveOp (src dest : Operand) (s : State) : Except Fault State := do
  let v ← readOperand src s
  writeOperand dest v s

/-- MOVE (R105). -/
def execMove (src dest : Operand) (s : State) : Host.Outcome State Fault Refusal :=
  complete s (moveOp src dest s)

/-- PRINT (R106): operand 1 is read and emitted; if the read faults nothing is emitted. -/
def printOp (src : Operand) (s : State) : Except Fault State := do
  let v ← readOperand src s
  .ok (emit v s)

/-- PRINT (R106). -/
def execPrint (src : Operand) (s : State) : Host.Outcome State Fault Refusal :=
  complete s (printOp src s)

end Sys2Proof.Machine
end

