-- ==== Sys2Proof/Machine/Dispatch.lean ====
section
/-! DEFINITION. Phase 3 of a step, the dispatch: one arm per opcode (41_step_and_dispatch.md R80, R83).
The state is the one after the advance of `pc`. -/

namespace Sys2Proof.Machine

def exec (i : Instr) (s : State) : Host.Outcome State Fault Refusal :=
  match i with
  | .crash => Sys2Proof.Machine.execCrash s
  | .print src => Sys2Proof.Machine.execPrint src s
  | .add src dest => Sys2Proof.Machine.execAdd src dest s
  | .sub src dest => Sys2Proof.Machine.execSub src dest s
  | .mul src dest => Sys2Proof.Machine.execMul src dest s
  | .div src dest => Sys2Proof.Machine.execDiv src dest s
  | .mod src dest => Sys2Proof.Machine.execMod src dest s
  | .jump src => Sys2Proof.Machine.execJump src s
  | .cmp src dest => Sys2Proof.Machine.execCmp src dest s
  | .and src dest => Sys2Proof.Machine.execAnd src dest s
  | .or src dest => Sys2Proof.Machine.execOr src dest s
  | .ifOp => Sys2Proof.Machine.execIf s
  | .call => Sys2Proof.Machine.execCall s
  | .move src dest => Sys2Proof.Machine.execMove src dest s

end Sys2Proof.Machine
end

