-- ==== Sys2Proof/Machine/Step.lean ====
section
/-! DEFINITION. The step (41_step_and_dispatch.md R80): fetch, advance, dispatch. -/

namespace Sys2Proof.Machine

/-- One step under a numbering: the 5 bytes at `pc` are fetched, `pc` is advanced, and the instruction
runs in the advanced state; an opcode byte that is not in `OPC` raises UnknownInstruction (R80). -/
def stepWith (n : Numbering) (s : State) : Host.Outcome State Fault Refusal :=
  match decodeWith n (fetch s) with
  | .ok i => exec i (advance s)
  | .error e => execUnknown e (advance s)

/-- One step of the machine, with the default numbering. -/
def step (s : State) : Host.Outcome State Fault Refusal :=
  stepWith defaultNumbering s

/-- The instruction of a table word stored at `pc`, where the next step fetches it (log 18, 19). -/
def State.withFetchWord (s : State) (nbits w : Nat) : State :=
  placeWindow (tableWindow nbits w) s

end Sys2Proof.Machine
end

