-- ==== Sys2Proof/Machine/HostInterface.lean ====
section
/-! DEFINITION. The host's moves (70_reset_and_hazards.md section 4): reset, load and step, and no other
(R164). Each is applied between steps (R87), and nothing else changes the state (R24). -/

namespace Sys2Proof.Machine

/-- A move of the host that can change the state (R164). The fourth, to observe, reads it. -/
inductive HostMove where
  | reset
  | load (image : List Byte)
  | step
  deriving DecidableEq, Repr

/-- What a move does: reset leaves nothing of the old state (R150), load is `load` (R153), and step is one
step (R80). -/
def hostMove (n : Numbering) (m : HostMove) (s : State) : Host.Outcome State Fault Refusal :=
  match m with
  | .reset => .next State.reset
  | .load image => .next (load image s)
  | .step => stepWith n s

/-- A run: moves one after another (R36, R152), up to the first outcome that is not a next state. -/
def hostRun (n : Numbering) : List HostMove → State → Host.Outcome State Fault Refusal
  | [], s => .next s
  | m :: rest, s =>
    match hostMove n m s with
    | .next t => hostRun n rest t
    | .fault f => .fault f
    | .refused r => .refused r

end Sys2Proof.Machine
end

