-- ==== Sys2Proof/Safety.lean ====
section
/-! DEFINITION. The terms claims are made in: which faults can be raised at all, the invariant of the
machine, what is reachable, and what a safe run is. -/

namespace Sys2Proof.Machine

/-- The reports a fault output can hold: no OutOfInstructions (R140), a bad register index is 7 or more
(R123), and an unknown opcode is not in `OPC` (R54). -/
def FaultPossible (n : Numbering) : Fault → Prop
  | .outOfInstructions => False
  | .badRegister i => 7 ≤ i.toNat
  | .unknownInstruction op _ => ∀ o, n.opc o ≠ op
  | .explicitCrash => True
  | .hitZero => True
  | .unknownAddressingMode => True
  | .assignToConstant => True

/-- The invariant. -/
structure Inv (n : Numbering) (s : State) : Prop where
  /-- Memory is in canonical form. -/
  mem_wf : Memory.wf s.mem = true
  /-- `x[7]` holds its reset value (R13). -/
  reg7_zero : s.regs[7] = 0
  /-- A step that faults emits nothing (R84). -/
  one_output : s.charOut = none ∨ s.faultOut = none
  /-- The byte on the character output is the newest one the host has (R107). -/
  char_recorded : ∀ v, s.charOut = some v → s.emitted.getLast? = some v
  /-- The fault on the fault output is the newest one the host has (R139). -/
  fault_recorded : ∀ f, s.faultOut = some f → s.faults.getLast? = some f
  /-- Only faults that can be raised have been. -/
  faults_possible : ∀ f ∈ s.faults, FaultPossible n f

/-- Reachable: what some sequence of host moves leaves of the reset state. Since a host may load any
image, this speaks of every program. -/
def Reachable (n : Numbering) (s : State) : Prop :=
  ∃ moves, hostRun n moves State.reset = .next s

/-- No fault has been recorded since reset: the sticky record that R139 leaves to the host (log 3). -/
def FaultFree (s : State) : Prop := s.faults = []

/-- A safe run: its moves all complete, and no step among them raises a fault, whatever resets and loads
stand between them (R165). It looks at every step's fault output and not at the record, which a
reset empties. -/
def SafeRun (n : Numbering) : List HostMove → State → Prop
  | [], _ => True
  | m :: rest, s =>
    ∃ t, hostMove n m s = .next t ∧ (m = .step → t.faultOut = none) ∧ SafeRun n rest t

/-- The premise of a claim that is to be independent of the spec's decision D5: the fetch does not pass
the top of memory (R155). -/
def FetchBelowTop (s : State) : Prop := s.pc.toNat ≤ 251

end Sys2Proof.Machine
end

