-- ==== Sys2Proof/Certificates/Slice0/Obligations.lean ====
section
/-! DEFINITION. The statements for the provers, after the vocabulary they are written in. The vocabulary
(namespace Claims) says again, from the rules and not through the resolver or the meanings, what an
operand's value is, what a write leaves, and which fault an operand raises; the last part of it is a
reference machine that works on raw bytes. A fault of a step is reported on the fault output of the
next state (log 1). Statements that take a numbering hold for every numbering R6 allows, so they do
not rest on the default numbers. -/

namespace Sys2Proof.Claims

open Sys2Proof.Machine

/-- The state after a step that raised `f` in `s`: the fault is reported and nothing else changed (R125,
R126; the form is the model's, log 1). -/
def reported (f : Fault) (s : State) : State :=
  { s with faultOut := some f, faults := s.faults ++ [f] }

/-- The state in which an instruction runs: `pc` is advanced by 5 and both outputs are idle (R82; log 2). -/
def begun (s : State) : State :=
  { s with pc := s.pc + 5, charOut := none, faultOut := none }

/-- `ReadOperand` of this operand in this state returns `v` (R67, R68, R69, R70). -/
def HasValue : Operand → State → Byte → Prop
  | .const b, _, v => v = b
  | .reg b, s, v => ∃ h : b.toNat < 7, v = s.regs[b.toNat]
  | .memC b, s, v => v = memRead b s
  | .memR b, s, v => ∃ h : b.toNat < 7, v = memRead s.regs[b.toNat] s
  | .unknown _ _, _, _ => False

/-- `WriteOperand` of this operand with `v` takes `s` to `t` (R73, R74, R75): one register or one memory
cell is replaced, and the rest of the state is the same. -/
def Stored : Operand → Byte → State → State → Prop
  | .const _, _, _, _ => False
  | .reg b, v, s, t => ∃ h : b.toNat < 7, t = { s with regs := s.regs.set b.toNat v }
  | .memC b, v, s, t => t = memWrite b v s
  | .memR b, v, s, t => ∃ h : b.toNat < 7, t = memWrite s.regs[b.toNat] v s
  | .unknown _ _, _, _, _ => False

/-- The ReadOperand column of R76's table. -/
def readFault : Operand → Option Fault
  | .const _ => none
  | .reg b => if 7 ≤ b.toNat then some (.badRegister b) else none
  | .memC _ => none
  | .memR b => if 7 ≤ b.toNat then some (.badRegister b) else none
  | .unknown _ _ => some .unknownAddressingMode

/-- The WriteOperand column of R76's table. -/
def writeFault : Operand → Option Fault
  | .const _ => some .assignToConstant
  | .reg b => if 7 ≤ b.toNat then some (.badRegister b) else none
  | .memC _ => none
  | .memR b => if 7 ≤ b.toNat then some (.badRegister b) else none
  | .unknown _ _ => some .unknownAddressingMode

/-- The opcode byte alone selects the instruction, and both operand fields are its operands (R45, R51,
R53). -/
def EncodedWithTwoOperands (op : Opcode) (mk : Operand → Operand → Instr) : Prop :=
  ∀ (n : Numbering) (w : Window), n.Lawful → w.op = n.opc op →
    decodeWith n w = .ok (mk (decodeOperand n w.mode1 w.byte1) (decodeOperand n w.mode2 w.byte2))

/-- Where both operands can be read, the destination can be written and the source value is allowed, the
instruction completes, and the whole change is that the destination holds a result that stands in
the given relation to the destination's old value and the source value (R90). -/
def BinaryResult (mk : Operand → Operand → Instr) (Allowed : Byte → Prop)
    (Result : Byte → Byte → Byte → Prop) : Prop :=
  ∀ (src dest : Operand) (s : State) (a d : Byte), HasValue src s a → HasValue dest s d →
    writeFault dest = none → Allowed a →
      ∃ (r : Byte) (t : State), Result d a r ∧ Stored dest r s t ∧ exec (mk src dest) s = .next t

/-- Where an operand cannot be read or the destination cannot be written, the step reports a fault of one
of these accesses and changes nothing (R90 steps 1 to 3, in no particular order). -/
def BinaryFaults (mk : Operand → Operand → Instr) : Prop :=
  ∀ (src dest : Operand) (s : State),
    (readFault src ≠ none ∨ readFault dest ≠ none ∨ writeFault dest ≠ none) →
      ∃ g, (readFault src = some g ∨ readFault dest = some g ∨ writeFault dest = some g) ∧
        exec (mk src dest) s = .next (reported g s)

/-- A zero source with everything else in order raises HitZero, and nothing is written (R90 step 4; the
spec's decisions D6 and D7; log 8, 9). -/
def ZeroSourceHitsZero (mk : Operand → Operand → Instr) : Prop :=
  ∀ (src dest : Operand) (s : State), HasValue src s 0 → readFault dest = none →
    writeFault dest = none → exec (mk src dest) s = .next (reported .hitZero s)

/-! The reference machine: the triple `(M, x, pc)` of R7 with memory and registers as plain functions, and
the pseudocode of R66, R71, R80, R90, R105, R106, R110 to R113 on raw bytes. -/

/-- The triple `(M, x, pc)` (R7). -/
structure Triple where
  M : Byte → Byte
  x : Fin 8 → Byte
  pc : Byte

/-- The triple of a state. -/
def tripleOf (s : State) : Triple where
  M := fun a => memRead a s
  x := fun i => s.regs[i.val]
  pc := s.pc

/-- What a step yields (R7, R84): the next triple, an optional emitted byte and an optional fault. -/
structure Yield where
  next : Triple
  emitted : Option Byte
  fault : Option Fault

/-- R66, on raw bytes. -/
def refRead (n : Numbering) (m b : Byte) (r : Triple) : Except Fault Byte :=
  if m = n.mode .const then .ok b
  else if m = n.mode .reg then
    if h : b.toNat < 7 then .ok (r.x ⟨b.toNat, by omega⟩) else .error (.badRegister b)
  else if m = n.mode .memC then .ok (r.M b)
  else if m = n.mode .memR then
    if h : b.toNat < 7 then .ok (r.M (r.x ⟨b.toNat, by omega⟩)) else .error (.badRegister b)
  else .error .unknownAddressingMode

/-- R71, on raw bytes. -/
def refWrite (n : Numbering) (m b v : Byte) (r : Triple) : Except Fault Triple :=
  if m = n.mode .const then .error .assignToConstant
  else if m = n.mode .reg then
    if b.toNat < 7 then .ok { r with x := fun i => if i.val = b.toNat then v else r.x i }
    else .error (.badRegister b)
  else if m = n.mode .memC then .ok { r with M := fun a => if a = b then v else r.M a }
  else if m = n.mode .memR then
    if h : b.toNat < 7 then
      .ok { r with M := fun a => if a = r.x ⟨b.toNat, by omega⟩ then v else r.M a }
    else .error (.badRegister b)
  else .error .unknownAddressingMode

/-- The function of a binary opcode, in the integers and then reduced (R91 to R98, R100); DIV and MOD by 0
have none. -/
def refFunction (op : Opcode) (d s : Byte) : Option Byte :=
  match op with
  | .add => some (BitVec.ofNat 8 ((d.toNat + s.toNat) % 256))
  | .sub => some (BitVec.ofInt 8 (((d.toNat : Int) - (s.toNat : Int)) % 256))
  | .mul => some (BitVec.ofNat 8 ((d.toNat * s.toNat) % 256))
  | .div => if s.toNat = 0 then none else some (BitVec.ofNat 8 (d.toNat / s.toNat))
  | .mod => if s.toNat = 0 then none else some (BitVec.ofNat 8 (d.toNat % s.toNat))
  | .and => some (d &&& s)
  | .or => some (d ||| s)
  | .cmp => some (if d.toNat > s.toNat then 255 else if d.toNat < s.toNat then 1 else 0)
  | .crash | .print | .jump | .ifOp | .call | .move => none

/-- R90, on raw bytes, with the order of the spec's decision D7. -/
def refBinary (n : Numbering) (op : Opcode) (w : Window) (r : Triple) : Except Fault Triple :=
  match refRead n w.mode1 w.byte1 r with
  | .error f => .error f
  | .ok s =>
    match refRead n w.mode2 w.byte2 r with
    | .error f => .error f
    | .ok d =>
      if w.mode2 = n.mode .const then .error .assignToConstant
      else
        match refFunction op d s with
        | none => .error .hitZero
        | some v => refWrite n w.mode2 w.byte2 v r

/-- The five bytes at `pc`, addresses modulo 256 (R81). -/
def refFetch (r : Triple) : Window where
  op := r.M (BitVec.ofNat 8 (r.pc.toNat % 256))
  mode1 := r.M (BitVec.ofNat 8 ((r.pc.toNat + 1) % 256))
  byte1 := r.M (BitVec.ofNat 8 ((r.pc.toNat + 2) % 256))
  mode2 := r.M (BitVec.ofNat 8 ((r.pc.toNat + 3) % 256))
  byte2 := r.M (BitVec.ofNat 8 ((r.pc.toNat + 4) % 256))

/-- What a step that faults yields: the triple with `pc` advanced, and the fault (R126). -/
def refFaulted (r : Triple) (f : Fault) : Yield := { next := r, emitted := none, fault := some f }

/-- What a step that ends normally and emits nothing yields. -/
def refDone (r : Triple) : Yield := { next := r, emitted := none, fault := none }

/-- What a step that was to write yields, from the advanced triple `r`. -/
def refWrote (r : Triple) (e : Except Fault Triple) : Yield :=
  match e with
  | .ok t => refDone t
  | .error f => refFaulted r f

/-- The step of R80 on the triple: fetch, advance, dispatch on the opcode byte, execute. -/
def refStep (n : Numbering) (r₀ : Triple) : Yield :=
  let w := refFetch r₀
  let r : Triple := { r₀ with pc := BitVec.ofNat 8 ((r₀.pc.toNat + 5) % 256) }
  if w.op = n.opc .crash then refFaulted r .explicitCrash
  else if w.op = n.opc .print then
    match refRead n w.mode1 w.byte1 r with
    | .ok v => { next := r, emitted := some v, fault := none }
    | .error f => refFaulted r f
  else if w.op = n.opc .add then refWrote r (refBinary n .add w r)
  else if w.op = n.opc .sub then refWrote r (refBinary n .sub w r)
  else if w.op = n.opc .mul then refWrote r (refBinary n .mul w r)
  else if w.op = n.opc .div then refWrote r (refBinary n .div w r)
  else if w.op = n.opc .mod then refWrote r (refBinary n .mod w r)
  else if w.op = n.opc .and then refWrote r (refBinary n .and w r)
  else if w.op = n.opc .or then refWrote r (refBinary n .or w r)
  else if w.op = n.opc .cmp then refWrote r (refBinary n .cmp w r)
  else if w.op = n.opc .jump then
    match refRead n w.mode1 w.byte1 r with
    | .ok t => refDone { r with pc := t }
    | .error f => refFaulted r f
  else if w.op = n.opc .ifOp then refDone r
  else if w.op = n.opc .call then refDone r
  else if w.op = n.opc .move then
    match refRead n w.mode1 w.byte1 r with
    | .ok v => refWrote r (refWrite n w.mode2 w.byte2 v r)
    | .error f => refFaulted r f
  else refFaulted r (.unknownInstruction w.op r₀.pc)

/-- The fault of reading an operand given by its raw bytes (R127 items 2 and 3). -/
def rawReadFault (n : Numbering) (m b : Byte) : Option Fault :=
  if m = n.mode .const ∨ m = n.mode .memC then none
  else if m = n.mode .reg ∨ m = n.mode .memR then
    if 7 ≤ b.toNat then some (.badRegister b) else none
  else some .unknownAddressingMode

/-- The fault of writing an operand given by its raw bytes (R127 item 4). -/
def rawWriteFault (n : Numbering) (m b : Byte) : Option Fault :=
  if m = n.mode .const then some .assignToConstant else rawReadFault n m b

/-- The fault the step from `s` reports, by the list of R127: dispatch, operand 1, the read of operand 2,
the write, the divisor. -/
def prioritisedFault (n : Numbering) (s : State) : Option Fault :=
  let w := fetch s
  let one := rawReadFault n w.mode1 w.byte1
  let two := rawReadFault n w.mode2 w.byte2
  let write := rawWriteFault n w.mode2 w.byte2
  let zero :=
    match refRead n w.mode1 w.byte1 (tripleOf s) with
    | .ok v => if v = 0 then some Fault.hitZero else none
    | .error _ => none
  if w.op = n.opc .crash then some .explicitCrash
  else if w.op = n.opc .ifOp ∨ w.op = n.opc .call then none
  else if w.op = n.opc .print ∨ w.op = n.opc .jump then one
  else if w.op = n.opc .move then one.or write
  else if w.op = n.opc .div ∨ w.op = n.opc .mod then ((one.or two).or write).or zero
  else if w.op = n.opc .add ∨ w.op = n.opc .sub ∨ w.op = n.opc .mul ∨ w.op = n.opc .cmp ∨
      w.op = n.opc .and ∨ w.op = n.opc .or then (one.or two).or write
  else some (.unknownInstruction w.op s.pc)

end Sys2Proof.Claims

open Sys2Proof Sys2Proof.Machine Sys2Proof.Claims

/-! ### Encoding -/

/-- Decode and encode agree (R45, R51, R53): under every numbering R6 allows, decoding the encoding of a
well-formed instruction gives it back, with every operand at every value. -/
def Obligations.DecodeOfEncodeIsIdentity : Prop :=
  ∀ (n : Numbering) (i : Instr), n.Lawful → i.wf n = true → decodeWith n (encodeWith n i) = .ok i

/-- The other direction: what the decoder answers is well formed, and encoding it gives back the opcode
byte and the bytes of every operand the instruction uses (R53). -/
def Obligations.EncodeOfDecodeKeepsUsedBytes : Prop :=
  ∀ (n : Numbering) (w : Window) (i : Instr), n.Lawful → decodeWith n w = .ok i →
    i.wf n = true ∧ (encodeWith n i).op = w.op ∧
      (operand1 i ≠ none → (encodeWith n i).mode1 = w.mode1 ∧ (encodeWith n i).byte1 = w.byte1) ∧
      (operand2 i ≠ none → (encodeWith n i).mode2 = w.mode2 ∧ (encodeWith n i).byte2 = w.byte2)

/-- Decoding is total (R62, an inference the spec marks as its own): each window either has an opcode byte
outside `OPC` and is refused by that byte's name, or it is exactly one instruction, whose opcode has
that byte. -/
def Obligations.EveryWindowHasOneDecoding : Prop :=
  ∀ (n : Numbering) (w : Window), n.Lawful →
    ((∀ o, n.opc o ≠ w.op) → decodeWith n w = .error (.unknownOpcode w.op)) ∧
      ∀ o, n.opc o = w.op → ∃ i, decodeWith n w = .ok i ∧ opcodeName i = o

/-- Unused bytes are ignored (R56; the spec's decision D8; log 10): CRASH, IF and CALL decode from the
opcode byte alone, PRINT and JUMP from the first three bytes. -/
def Obligations.UnusedBytesAreIgnored : Prop :=
  ∀ (n : Numbering) (w w' : Window), n.Lawful → w'.op = w.op →
    ((w.op = n.opc .crash ∨ w.op = n.opc .ifOp ∨ w.op = n.opc .call) →
      decodeWith n w' = decodeWith n w) ∧
    ((w.op = n.opc .print ∨ w.op = n.opc .jump) → w'.mode1 = w.mode1 → w'.byte1 = w.byte1 →
      decodeWith n w' = decodeWith n w)

/-- R48 and R49: the whole mode byte is compared with the four values of `MODE`, and the operand byte is
taken as it is. -/
def Obligations.ModeByteIsComparedWhole : Prop :=
  ∀ (n : Numbering) (m b : Byte), n.Lawful →
    (m = n.mode .const → decodeOperand n m b = .const b) ∧
    (m = n.mode .reg → decodeOperand n m b = .reg b) ∧
    (m = n.mode .memC → decodeOperand n m b = .memC b) ∧
    (m = n.mode .memR → decodeOperand n m b = .memR b) ∧
    ((∀ k, n.mode k ≠ m) → decodeOperand n m b = .unknown m b)

/-- The default numbering (the spec's decisions D1, D2, D3; log 4, 5, 6) is one R6 allows. -/
def Obligations.DefaultNumberingIsLawful : Prop := defaultNumbering.Lawful

/-- A few words written out from R45, R50 and R52 decode to the instructions they stand for (default
numbers: the spec's decisions D1, D2; log 4, 5, 18). -/
def Obligations.TableWordsDecodeToTheirInstructions : Prop :=
  decodeTableWord 40 0x0D0005020F = some (.move (.const 5) (.memC 15)) ∧
  decodeTableWord 40 0x0200300102 = some (.add (.const 48) (.reg 2)) ∧
  decodeTableWord 40 0x0701010000 = some (.jump (.reg 1)) ∧
  decodeTableWord 40 0x08023C0302 = some (.cmp (.memC 60) (.memR 2)) ∧
  decodeTableWord 40 0x0104090000 = some (.print (.unknown 4 9)) ∧
  decodeTableWord 40 0x0B09090909 = some .ifOp ∧
  decodeTableWord 40 0x0E00000000 = none

/-! ### Reset, load and the host -/

/-- R150: after reset every cell of `M`, every cell of `x` (all eight) and `pc` is 0 and both outputs are
idle, and nothing of the old state survives it. -/
def Obligations.ResetZeroesEverything : Prop :=
  ∀ (n : Numbering) (s : State), ∃ t, hostMove n .reset s = .next t ∧ t = State.reset ∧
    (∀ a, memRead a t = 0) ∧ (∀ i : Fin 8, t.regs[i.val] = 0) ∧ t.pc = 0 ∧
    t.charOut = none ∧ t.faultOut = none

/-- The first step of a machine with nothing loaded (R22 and R59, inferences the spec marks as its own)
yields ExplicitCrash and leaves `pc` at 5, memory and registers all zero. -/
def Obligations.FirstStepAfterResetCrashes : Prop :=
  ∀ n : Numbering, n.Lawful →
    stepWith n State.reset = .next (reported .explicitCrash { State.reset with pc := 5 })

/-- Load (R153, with the spec's decisions D4 and D12; log 12): for every image and state with canonical
memory, cell `a` holds the image's byte if `a` is below `min(256, length)`, and what it held before
otherwise; every register and `pc` are unchanged. That the two outputs and the two histories are
unchanged as well is the model's own choice (log 2 and 3): the spec does not say what they show after a
load. -/
def Obligations.LoadCopiesThePrefix : Prop :=
  ∀ (image : List Byte) (s : State), Memory.wf s.mem = true →
    (∀ a : Byte, memRead a (load image s) =
      if h : a.toNat < image.length then image[a.toNat] else memRead a s) ∧
    (load image s).regs = s.regs ∧ (load image s).pc = s.pc ∧
    (load image s).charOut = s.charOut ∧ (load image s).faultOut = s.faultOut ∧
    (load image s).emitted = s.emitted ∧ (load image s).faults = s.faults

/-- Boot (R151, R152): from any state, reset and then load leaves `pc` at 0, all registers 0 and memory
beyond the image 0, and the first step fetches the image's first five bytes. -/
def Obligations.BootFetchesTheImageStart : Prop :=
  ∀ (n : Numbering) (image : List Byte) (s : State), ∃ t,
    hostRun n [.reset, .load image] s = .next t ∧ t.pc = 0 ∧
    (∀ i : Fin 8, t.regs[i.val] = 0) ∧
    (∀ a : Byte, image.length ≤ a.toNat → memRead a t = 0) ∧
    fetch t = { op := image.getD 0 0, mode1 := image.getD 1 0, byte1 := image.getD 2 0,
                mode2 := image.getD 3 0, byte2 := image.getD 4 0 }

/-! ### Memory -/

/-- R33 and R34: `MemRead` returns `M[a]`, and `MemWrite` sets `M[a]` and leaves every other cell, every
register and `pc` unchanged. -/
def Obligations.MemWriteChangesOneCell : Prop :=
  ∀ (a v : Byte) (s : State), Memory.wf s.mem = true →
    memRead a (memWrite a v s) = v ∧
    (∀ b, b ≠ a → memRead b (memWrite a v s) = memRead b s) ∧
    (memWrite a v s).regs = s.regs ∧ (memWrite a v s).pc = s.pc ∧
    (memWrite a v s).charOut = s.charOut ∧ (memWrite a v s).faultOut = s.faultOut ∧
    (memWrite a v s).emitted = s.emitted ∧ (memWrite a v s).faults = s.faults

/-- The canonical form is canonical (the model's representation of `M`; log 17): two memories in it that
hold the same byte at each of the 256 addresses are the same list. -/
def Obligations.CanonicalMemoriesWithEqualCellsAreEqual : Prop :=
  ∀ m m' : Memory, Memory.wf m = true → Memory.wf m' = true →
    (∀ a : Byte, Memory.lookup m a.toNat = Memory.lookup m' a.toNat) → m = m'

/-- A stored instruction is fetched at once (R40, with the fetch of decision D5; log 7): the bytes of a
well-formed instruction placed at `pc` are what the very next step runs. -/
def Obligations.InstructionPlacedAtPcRunsNext : Prop :=
  ∀ (n : Numbering) (i : Instr) (s : State), n.Lawful → i.wf n = true → Memory.wf s.mem = true →
    stepWith n (placeWindow (encodeWith n i) s) = exec i (begun (placeWindow (encodeWith n i) s))

/-- Self-modifying code (R40, and R41, an inference the spec marks as its own): a MOVE to the opcode byte of
the next instruction is seen by the next fetch, and a MOVE to its own opcode byte completes as fetched
and leaves the new byte in memory. -/
def Obligations.StoresReachTheNextFetch : Prop :=
  ∀ (n : Numbering) (s : State) (src : Operand) (v : Byte), Memory.wf s.mem = true →
    HasValue src s v →
    (decodeWith n (fetch s) = .ok (.move src (.memC (s.pc + 5))) →
      ∃ t, stepWith n s = .next t ∧ (fetch t).op = v) ∧
    (decodeWith n (fetch s) = .ok (.move src (.memC s.pc)) →
      ∃ t, stepWith n s = .next t ∧ memRead s.pc t = v ∧ t.pc = s.pc + 5)

/-! ### The resolver -/

/-- R66 and its cases R67 to R70: `ReadOperand(m, b)`, for every mode byte and operand byte. -/
def Obligations.ReadOperandFollowsThePseudocode : Prop :=
  ∀ (n : Numbering) (m b : Byte) (s : State), n.Lawful →
    readOperand (decodeOperand n m b) s =
      if m = n.mode .const then .ok b
      else if m = n.mode .reg then
        if h : b.toNat < 7 then .ok s.regs[b.toNat] else .error (.badRegister b)
      else if m = n.mode .memC then .ok (memRead b s)
      else if m = n.mode .memR then
        if h : b.toNat < 7 then .ok (memRead s.regs[b.toNat] s) else .error (.badRegister b)
      else .error .unknownAddressingMode

/-- R71: `WriteOperand(m, b, v)`, for every mode byte and operand byte; a write that faults answers no
state, so it has changed nothing. -/
def Obligations.WriteOperandFollowsThePseudocode : Prop :=
  ∀ (n : Numbering) (m b v : Byte) (s : State), n.Lawful →
    writeOperand (decodeOperand n m b) v s =
      if m = n.mode .const then .error .assignToConstant
      else if m = n.mode .reg then
        if h : b.toNat < 7 then .ok { s with regs := s.regs.set b.toNat v }
        else .error (.badRegister b)
      else if m = n.mode .memC then .ok (memWrite b v s)
      else if m = n.mode .memR then
        if h : b.toNat < 7 then .ok (memWrite s.regs[b.toNat] v s) else .error (.badRegister b)
      else .error .unknownAddressingMode

/-- What was written is read back: after a successful write of an operand, reading the same operand gives
the value (R73 to R75; for MEM_R because the pointer register is not changed). -/
def Obligations.WrittenOperandReadsBack : Prop :=
  ∀ (o : Operand) (v : Byte) (s t : State), Memory.wf s.mem = true → writeOperand o v s = .ok t →
    readOperand o t = .ok v

/-! ### The ALU -/

/-- R91. ADD writes (dest + src) mod 256. -/
def Obligations.AddWritesTheWrappedSum : Prop :=
  EncodedWithTwoOperands .add .add ∧ BinaryFaults .add ∧
  BinaryResult .add (fun _ => True) fun d s r => r.toNat = (d.toNat + s.toNat) % 256

/-- R92. SUB writes (dest - src) mod 256: the destination minus the source. -/
def Obligations.SubWritesTheWrappedDifference : Prop :=
  EncodedWithTwoOperands .sub .sub ∧ BinaryFaults .sub ∧
  BinaryResult .sub (fun _ => True) fun d s r =>
    (r.toNat : Int) = ((d.toNat : Int) - (s.toNat : Int)) % 256

/-- MUL (R93, with the spec's decision D15; log 15) writes the low 8 bits of the unsigned product. -/
def Obligations.MulWritesTheLowByteOfTheProduct : Prop :=
  EncodedWithTwoOperands .mul .mul ∧ BinaryFaults .mul ∧
  BinaryResult .mul (fun _ => True) fun d s r => r.toNat = (d.toNat * s.toNat) % 256

/-- DIV (R94, with the spec's decisions D6, D7 and D15; log 8, 9, 15) writes the quotient of the
destination by a non-zero source, rounded toward zero; a zero source raises HitZero. -/
def Obligations.DivWritesTheQuotient : Prop :=
  EncodedWithTwoOperands .div .div ∧ BinaryFaults .div ∧ ZeroSourceHitsZero .div ∧
  BinaryResult .div (fun s => s ≠ 0) fun d s r =>
    r.toNat * s.toNat ≤ d.toNat ∧ d.toNat < (r.toNat + 1) * s.toNat

/-- MOD (R95, with the spec's decisions D6, D7 and D15; log 8, 9, 15) writes the remainder of the
destination by a non-zero source: below the source, and with the quotient it makes up the
destination; a zero source raises HitZero. -/
def Obligations.ModWritesTheRemainder : Prop :=
  EncodedWithTwoOperands .mod .mod ∧ BinaryFaults .mod ∧ ZeroSourceHitsZero .mod ∧
  BinaryResult .mod (fun s => s ≠ 0) fun d s r =>
    r.toNat < s.toNat ∧ (d.toNat / s.toNat) * s.toNat + r.toNat = d.toNat

/-- R96. AND writes the bitwise conjunction. -/
def Obligations.AndWritesTheBitwiseAnd : Prop :=
  EncodedWithTwoOperands .and .and ∧ BinaryFaults .and ∧
  BinaryResult .and (fun _ => True) fun d s r =>
    ∀ i : Fin 8, r[i.val] = true ↔ d[i.val] = true ∧ s[i.val] = true

/-- R97. OR writes the bitwise disjunction. -/
def Obligations.OrWritesTheBitwiseOr : Prop :=
  EncodedWithTwoOperands .or .or ∧ BinaryFaults .or ∧
  BinaryResult .or (fun _ => True) fun d s r =>
    ∀ i : Fin 8, r[i.val] = true ↔ d[i.val] = true ∨ s[i.val] = true

/-- CMP (R98, whose three values are the choice of the spec's conflict C2; log 16) writes 255 if dest > src,
1 if dest < src, 0 if they are equal, as unsigned bytes. -/
def Obligations.CmpWritesTheUnsignedOrder : Prop :=
  EncodedWithTwoOperands .cmp .cmp ∧ BinaryFaults .cmp ∧
  BinaryResult .cmp (fun _ => True) fun d s r =>
    (s.toNat < d.toNat → r = 255) ∧ (d.toNat < s.toNat → r = 1) ∧ (d = s → r = 0)

/-! ### Data movement, output and control -/

/-- MOVE (R105) copies the source value to the destination, and a fault of either operand is reported with
nothing changed. Operand 1 is resolved first, so its fault is the one reported when both operands are
bad (the spec's decision D7; log 9). -/
def Obligations.MoveCopiesSourceToDestination : Prop :=
  EncodedWithTwoOperands .move .move ∧
  (∀ (src dest : Operand) (s : State) (v : Byte), HasValue src s v → writeFault dest = none →
    ∃ t, Stored dest v s t ∧ exec (.move src dest) s = .next t) ∧
  (∀ (src dest : Operand) (s : State) (f : Fault), readFault src = some f →
    exec (.move src dest) s = .next (reported f s)) ∧
  (∀ (src dest : Operand) (s : State) (v : Byte) (f : Fault), HasValue src s v →
    writeFault dest = some f → exec (.move src dest) s = .next (reported f s))

/-- The pointer chain of R75 and of the source's property S5: setting a usable register to an address and
storing through it gives the same memory as storing to that address directly. -/
def Obligations.StoreThroughPointerEqualsDirectStore : Prop :=
  ∀ (s : State) (a v i : Byte), Memory.wf s.mem = true → i.toNat < 7 →
    ∃ t₁ t₂ t₃, exec (.move (.const a) (.reg i)) s = .next t₁ ∧
      exec (.move (.const v) (.memR i)) t₁ = .next t₂ ∧
      exec (.move (.const v) (.memC a)) s = .next t₃ ∧
      t₂.mem = t₃.mem ∧ memRead a t₂ = v

/-- PRINT (R106, with the spec's decisions D8 and D10; log 10, 11) emits the value of operand 1 and changes
nothing else; if the read faults, nothing is emitted. Operand 2 is ignored. -/
def Obligations.PrintEmitsOperandOne : Prop :=
  (∀ (n : Numbering) (w : Window), n.Lawful → w.op = n.opc .print →
    decodeWith n w = .ok (.print (decodeOperand n w.mode1 w.byte1))) ∧
  (∀ (src : Operand) (s : State) (v : Byte), HasValue src s v →
    exec (.print src) s = .next { s with charOut := some v, emitted := s.emitted ++ [v] }) ∧
  (∀ (src : Operand) (s : State) (f : Fault), readFault src = some f →
    exec (.print src) s = .next (reported f s))

/-- R110. JUMP sets `pc` to the value of operand 1, whatever it is, and changes nothing else; if the read
faults, `pc` keeps its advanced value. Operand 2 is unused. -/
def Obligations.JumpSetsPcToOperandOne : Prop :=
  (∀ (n : Numbering) (w : Window), n.Lawful → w.op = n.opc .jump →
    decodeWith n w = .ok (.jump (decodeOperand n w.mode1 w.byte1))) ∧
  (∀ (src : Operand) (s : State) (v : Byte), HasValue src s v →
    exec (.jump src) s = .next { s with pc := v }) ∧
  (∀ (src : Operand) (s : State) (f : Fault), readFault src = some f →
    exec (.jump src) s = .next (reported f s))

/-- A jump to itself (R110's corner case): however many steps the host requests, the machine goes on, stays
where it is, and only the outputs are idle. -/
def Obligations.JumpToSelfLoopsForever : Prop :=
  ∀ (n : Numbering) (s : State) (k : Nat),
    decodeWith n (fetch s) = .ok (.jump (.const s.pc)) →
      hostRun n (List.replicate (k + 1) .step) s =
        .next { s with charOut := none, faultOut := none }

/-- CRASH (R111; the ignored operand bytes by the spec's decision D8, log 10): a step that fetches the
opcode byte 0 reports ExplicitCrash, with `pc` advanced and nothing else changed. -/
def Obligations.CrashReportsExplicitCrash : Prop :=
  (∀ s : State, exec .crash s = .next (reported .explicitCrash s)) ∧
  (∀ (n : Numbering) (s : State), n.Lawful → memRead s.pc s = 0 →
    stepWith n s = .next (reported .explicitCrash (begun s)))

/-- R112. IF is a no-op: a step that fetches its opcode byte changes nothing but `pc`, whatever the operand
bytes are. -/
def Obligations.IfOnlyAdvancesPc : Prop :=
  (∀ s : State, exec .ifOp s = .next s) ∧
  (∀ (n : Numbering) (s : State), n.Lawful → memRead s.pc s = n.opc .ifOp →
    stepWith n s = .next (begun s))

/-- R113. CALL is a no-op: a step that fetches its opcode byte changes nothing but `pc`, whatever the operand
bytes are. -/
def Obligations.CallOnlyAdvancesPc : Prop :=
  (∀ s : State, exec .call s = .next s) ∧
  (∀ (n : Numbering) (s : State), n.Lawful → memRead s.pc s = n.opc .call →
    stepWith n s = .next (begun s))

/-! ### Frames -/

/-- The frame of the nine storing instructions ADD, SUB, MUL, DIV, MOD, AND, OR, CMP and MOVE, exactly those
with an operand 2. In the next state: memory and all registers are unchanged but for the one place
operand 2 resolves to (in the state the instruction runs in); `pc`, the character output and the bytes
emitted are unchanged; the fault output and the list of faults are unchanged, or a fault is reported,
and then memory and registers are unchanged altogether. -/
def Obligations.StoringInstructionsFrame : Prop :=
  ∀ (src dest : Operand) (i : Instr) (s t : State),
    i ∈ [.add src dest, .sub src dest, .mul src dest, .div src dest, .mod src dest,
      .and src dest, .or src dest, .cmp src dest, .move src dest] →
    exec i s = .next t →
    (∀ a, resolve dest s = .ok (.cell a) →
      t.regs = s.regs ∧ ∀ b, b ≠ a → memRead b t = memRead b s) ∧
    (∀ r, resolve dest s = .ok (.register r) →
      (∀ b, memRead b t = memRead b s) ∧ ∀ j : Fin 8, j.val ≠ r.val → t.regs[j.val] = s.regs[j.val]) ∧
    (((∃ v, resolve dest s = .ok (.value v)) ∨ (∃ f, resolve dest s = .error f)) →
      t.regs = s.regs ∧ ∀ b, memRead b t = memRead b s) ∧
    t.pc = s.pc ∧ t.charOut = s.charOut ∧ t.emitted = s.emitted ∧
    ((t.faultOut = s.faultOut ∧ t.faults = s.faults) ∨
      ∃ f, t.faultOut = some f ∧ t.faults = s.faults ++ [f] ∧
        t.regs = s.regs ∧ ∀ b, memRead b t = memRead b s)

/-- The frame of PRINT, JUMP, CRASH, IF and CALL, which store nothing: every byte of memory and every
register is unchanged. PRINT changes the character output and the list of bytes emitted, JUMP changes
`pc`, each of PRINT, JUMP and CRASH may report a fault, and nothing else changes. -/
def Obligations.NonStoringInstructionsFrame : Prop :=
  ∀ (src : Operand) (i : Instr) (s t : State),
    i ∈ [.print src, .jump src, .crash, .ifOp, .call] → exec i s = .next t →
    (∀ b, memRead b t = memRead b s) ∧ t.regs = s.regs ∧
    (i ≠ .jump src → t.pc = s.pc) ∧
    (i ≠ .print src → t.charOut = s.charOut ∧ t.emitted = s.emitted) ∧
    (i = .ifOp ∨ i = .call → t.faultOut = s.faultOut ∧ t.faults = s.faults) ∧
    ((t.faultOut = s.faultOut ∧ t.faults = s.faults) ∨
      ∃ f, t.faultOut = some f ∧ t.faults = s.faults ++ [f] ∧
        t.pc = s.pc ∧ t.charOut = s.charOut ∧ t.emitted = s.emitted)

/-- No instruction reads `pc` (R15): the same instruction run from any other `pc` makes the same change to
memory, registers, outputs and histories. -/
def Obligations.NoInstructionReadsPc : Prop :=
  ∀ (i : Instr) (s t : State) (p : Byte), exec i s = .next t →
    ∃ u, exec i { s with pc := p } = .next u ∧ u.mem = t.mem ∧ u.regs = t.regs ∧
      u.charOut = t.charOut ∧ u.faultOut = t.faultOut ∧ u.emitted = t.emitted ∧
      u.faults = t.faults ∧ (u.pc = p ∨ u.pc = t.pc)

/-! ### The step -/

/-- A step runs the decoded instruction (R80): when the five bytes at `pc` decode to `i`, the step is `exec`
of `i` in the state with `pc` advanced by 5 and both outputs idle; in particular when they are the
encoding of a well-formed `i`. -/
def Obligations.StepRunsTheDecodedInstruction : Prop :=
  (∀ (s : State) (i : Instr), decode (fetch s) = .ok i →
    Sys2Proof.Machine.step s = exec i (begun s)) ∧
  (∀ (n : Numbering) (s : State) (i : Instr), decodeWith n (fetch s) = .ok i →
    stepWith n s = exec i (begun s)) ∧
  (∀ (n : Numbering) (s : State) (i : Instr), n.Lawful → i.wf n = true →
    fetch s = encodeWith n i → stepWith n s = exec i (begun s))

/-- The fetch (R81, with the spec's decision D5; log 7): byte `i` of the instruction is the cell at address
`(pc + i) mod 256`; below the top of memory the address is `pc + i` itself, which no decision is
needed for. -/
def Obligations.FetchReadsFiveCellsFromPc : Prop :=
  ∀ s : State,
    fetch s = { op := Memory.lookup s.mem s.pc.toNat
                mode1 := Memory.lookup s.mem ((s.pc.toNat + 1) % 256)
                byte1 := Memory.lookup s.mem ((s.pc.toNat + 2) % 256)
                mode2 := Memory.lookup s.mem ((s.pc.toNat + 3) % 256)
                byte2 := Memory.lookup s.mem ((s.pc.toNat + 4) % 256) } ∧
    (FetchBelowTop s →
      fetch s = { op := Memory.lookup s.mem s.pc.toNat
                  mode1 := Memory.lookup s.mem (s.pc.toNat + 1)
                  byte1 := Memory.lookup s.mem (s.pc.toNat + 2)
                  mode2 := Memory.lookup s.mem (s.pc.toNat + 3)
                  byte2 := Memory.lookup s.mem (s.pc.toNat + 4) })

/-- The step is defined in every state (R80, R88): it always answers a next state, never a stop, and so does
every run of host moves. -/
def Obligations.EveryRunCompletes : Prop :=
  (∀ s : State, ∃ t, Sys2Proof.Machine.step s = .next t) ∧
  ∀ (n : Numbering) (moves : List HostMove) (s : State), ∃ t, hostRun n moves s = .next t

/-- R54: an opcode byte outside `OPC` reports UnknownInstruction with that byte and the start address, `pc`
is advanced, and nothing else happens, whatever the other four bytes are. -/
def Obligations.UnknownOpcodeReportsByteAndAddress : Prop :=
  ∀ (n : Numbering) (s : State), (∀ o, n.opc o ≠ memRead s.pc s) →
    stepWith n s = .next (reported (.unknownInstruction (memRead s.pc s) s.pc) (begun s))

/-- R82 and R115: every step advances `pc` by 5 modulo 256 before anything that can fault; after the step
`pc` is the start address plus 5 unless a JUMP completed, and then it is the value of its operand; an
address that a fault reports is the start address. -/
def Obligations.StepAdvancesPcByFive : Prop :=
  ∀ (n : Numbering) (s t : State), stepWith n s = .next t →
    (((∀ src, decodeWith n (fetch s) ≠ .ok (.jump src)) ∨ t.faultOut ≠ none) →
      t.pc.toNat = (s.pc.toNat + 5) % 256) ∧
    (∀ src, decodeWith n (fetch s) = .ok (.jump src) → t.faultOut = none → HasValue src s t.pc) ∧
    (∀ i, decodeWith n (fetch s) = .ok i → exec i (begun s) = .next t) ∧
    (∀ op a, t.faultOut = some (.unknownInstruction op a) → a = s.pc)

/-- A faulting step (R126, an inference the spec marks as its own): `pc` is the start address plus 5, memory
and registers are exactly as before, nothing is emitted, and the fault is the one new entry of the
host's list. -/
def Obligations.FaultingStepChangesOnlyPc : Prop :=
  ∀ (n : Numbering) (s t : State) (f : Fault), stepWith n s = .next t → t.faultOut = some f →
    t = { s with pc := s.pc + 5, charOut := none, faultOut := some f, faults := s.faults ++ [f] }

/-- The total state change of a step (R84 and R14, inferences the spec marks as their own): a memory cell or
a register that differs after the step is the one place that operand 2 of the instruction resolves to.
So at most one cell of `x` or one cell of `M` changes, never both, and never `x[7]`. -/
def Obligations.StepWritesOnlyWhereOperandTwoPoints : Prop :=
  ∀ (n : Numbering) (s t : State), stepWith n s = .next t →
    (∀ a, memRead a t ≠ memRead a s →
      ∃ i dest, decodeWith n (fetch s) = .ok i ∧ operand2 i = some dest ∧
        resolve dest s = .ok (.cell a)) ∧
    (∀ j : Fin 8, t.regs[j.val] ≠ s.regs[j.val] →
      ∃ i dest r, decodeWith n (fetch s) = .ok i ∧ operand2 i = some dest ∧
        resolve dest s = .ok (.register r) ∧ r.val = j.val)

/-- The character output (R107, with the spec's decisions D4 and D10; log 2, 11): a byte is on it after a
step exactly when the step was a PRINT whose operand has that value. -/
def Obligations.OnlyPrintEmits : Prop :=
  ∀ (n : Numbering) (s t : State) (v : Byte), stepWith n s = .next t →
    (t.charOut = some v ↔
      ∃ src, decodeWith n (fetch s) = .ok (.print src) ∧ HasValue src s v)

/-- The histories (R23, the spec's decision D4; log 3): a step appends to them exactly what it has on its
two outputs. -/
def Obligations.HistoriesRecordTheOutputs : Prop :=
  ∀ (n : Numbering) (s t : State), stepWith n s = .next t →
    t.emitted = s.emitted ++ t.charOut.toList ∧ t.faults = s.faults ++ t.faultOut.toList

/-! ### Faults -/

/-- Which fault a step reports (R127, with the order of the spec's decision D7, and D6; log 8, 9): the one
the priority list gives from the raw bytes, and none where the list gives none. -/
def Obligations.ReportedFaultFollowsThePriorityList : Prop :=
  ∀ (n : Numbering) (s t : State), n.Lawful → stepWith n s = .next t →
    t.faultOut = prioritisedFault n s

/-- OutOfInstructions is never reported, HitZero only by DIV and MOD of a zero source (R128 and R140, the
former an inference the spec marks as its own; HitZero by its decision D6, log 8), AssignToConstant
only where operand 2 is a constant, ExplicitCrash only by CRASH, BadRegister only with an index of 7 or
more that stands in a REG or MEM_R operand the instruction uses, UnknownAddressingMode only where an
operand the instruction uses has a mode byte outside `MODE` (R55), and UnknownInstruction only with the
start address and the opcode byte there, which is outside `OPC` (R54). -/
def Obligations.FaultsComeFromTheirCauses : Prop :=
  ∀ (n : Numbering) (s t : State), stepWith n s = .next t →
    t.faultOut ≠ some .outOfInstructions ∧
    (t.faultOut = some .hitZero →
      ∃ src dest, decodeWith n (fetch s) = .ok (.div src dest) ∧ HasValue src s 0 ∨
        decodeWith n (fetch s) = .ok (.mod src dest) ∧ HasValue src s 0) ∧
    (t.faultOut = some .assignToConstant →
      ∃ i c, decodeWith n (fetch s) = .ok i ∧ operand2 i = some (.const c)) ∧
    (t.faultOut = some .explicitCrash → decodeWith n (fetch s) = .ok .crash) ∧
    (∀ b, t.faultOut = some (.badRegister b) → 7 ≤ b.toNat ∧
      ∃ i o, decodeWith n (fetch s) = .ok i ∧ (operand1 i = some o ∨ operand2 i = some o) ∧
        (o = .reg b ∨ o = .memR b)) ∧
    (t.faultOut = some .unknownAddressingMode →
      ∃ i m b, decodeWith n (fetch s) = .ok i ∧
        (operand1 i = some (.unknown m b) ∨ operand2 i = some (.unknown m b)) ∧
        ∀ k, n.mode k ≠ m) ∧
    (∀ op a, t.faultOut = some (.unknownInstruction op a) →
      op = memRead s.pc s ∧ a = s.pc ∧ ∀ o, n.opc o ≠ op)

/-- The machine goes on after a fault (R129, the spec's decision D9; log 1): the step after a faulting step
is the step from the same memory and registers at the next instruction's address; nothing is latched. -/
def Obligations.StepAfterFaultGoesOn : Prop :=
  ∀ (n : Numbering) (s t : State) (f : Fault), stepWith n s = .next t → t.faultOut = some f →
    ∃ u, stepWith n t = .next u ∧
      stepWith n { s with pc := s.pc + 5, faults := s.faults ++ [f] } = .next u

/-- The fault port (R139 and R122, the spec's decisions D3 and D4; log 2, 6): the wires show the code and the
information of the fault of the last step, and all 0 when it had none; different faults have different
codes. -/
def Obligations.FaultPortShowsTheFault : Prop :=
  ∀ (n : Numbering) (s : State), n.Lawful →
    (s.faultOut = none →
      faultValid s = false ∧ faultCode n s = 0 ∧ faultInfo s = 0 ∧ faultAddr s = 0) ∧
    (∀ f, s.faultOut = some f →
      faultValid s = true ∧ faultCode n s ≠ 0 ∧
      (∀ g : FaultName, faultCode n s = n.faultCode g ↔ faultName f = g) ∧
      (∀ i, f = .badRegister i → faultInfo s = i ∧ faultAddr s = 0) ∧
      (∀ op a, f = .unknownInstruction op a → faultInfo s = op ∧ faultAddr s = a) ∧
      (faultName f ≠ .badRegister → faultName f ≠ .unknownInstruction →
        faultInfo s = 0 ∧ faultAddr s = 0))

/-! ### The whole machine -/

/-- The invariant holds at reset. -/
def Obligations.ResetSatisfiesTheInvariant : Prop :=
  ∀ n : Numbering, Inv n State.reset

/-- Every step keeps the invariant, from every state that has it: memory in canonical form, `x[7] = 0`
(R13), never both outputs (R84), outputs and histories in agreement (R23), and only faults that can be
raised (R123, R140). The canonical form, the outputs and the histories are the model's (log 17, 2, 3). -/
def Obligations.StepKeepsTheInvariant : Prop :=
  (∀ (n : Numbering) (s t : State), Inv n s → stepWith n s = .next t → Inv n t) ∧
  (∀ s t : State, Inv defaultNumbering s → Sys2Proof.Machine.step s = .next t →
    Inv defaultNumbering t)

/-- Every state that some sequence of resets, loads of any images and steps reaches satisfies the invariant;
so `x[7] = 0` in every reachable state (R13, an inference the spec marks as its own). The canonical form
of memory, the outputs and the histories that the invariant speaks of are the model's (log 17, 2, 3). -/
def Obligations.ReachableStatesSatisfyTheInvariant : Prop :=
  ∀ (n : Numbering) (s : State), Reachable n s → Inv n s ∧ s.regs[7] = 0

/-- `x[7]` is inert (R13, an inference the spec marks as its own; D13; log 13): the step commutes with
changing the eighth register to any value, so no program can tell what is in it. -/
def Obligations.EighthRegisterIsInert : Prop :=
  ∀ (n : Numbering) (s t : State) (v : Byte), stepWith n s = .next t →
    stepWith n { s with regs := s.regs.set 7 v } = .next { t with regs := t.regs.set 7 v }

/-- Outputs and histories are not state (R23, the spec's decision D4; log 2, 3): what a step does to memory,
registers and `pc`, and what it puts on the outputs, depends on memory, registers and `pc` alone. -/
def Obligations.OutputsAndHistoriesAreNeverRead : Prop :=
  ∀ (n : Numbering) (s₁ s₂ t₁ : State), s₁.mem = s₂.mem → s₁.regs = s₂.regs → s₁.pc = s₂.pc →
    stepWith n s₁ = .next t₁ →
    ∃ t₂, stepWith n s₂ = .next t₂ ∧ t₂.mem = t₁.mem ∧ t₂.regs = t₁.regs ∧ t₂.pc = t₁.pc ∧
      t₂.charOut = t₁.charOut ∧ t₂.faultOut = t₁.faultOut

/-- Runs without faults (R165) and the host's sticky record of them (R139; the record is the model's `faults`,
log 3). Every first part of a run without faults is one. Where the host does not reset, a run that
begins with an empty record is without faults exactly when its record is empty at the end; and a run
whose later part holds no reset and whose record is empty at the end had an empty record before that
part. -/
def Obligations.PartsOfASafeRunAreSafe : Prop :=
  (∀ (n : Numbering) (moves more : List HostMove) (s : State),
    SafeRun n (moves ++ more) s → SafeRun n moves s) ∧
  (∀ (n : Numbering) (moves : List HostMove) (s : State), FaultFree s → (∀ m ∈ moves, m ≠ .reset) →
    (SafeRun n moves s ↔ ∃ t, hostRun n moves s = .next t ∧ FaultFree t)) ∧
  (∀ (n : Numbering) (moves more : List HostMove) (s : State), (∀ m ∈ more, m ≠ .reset) →
    (∃ t, hostRun n (moves ++ more) s = .next t ∧ FaultFree t) →
      ∃ t, hostRun n moves s = .next t ∧ FaultFree t)

/-- The model refines the reference machine (R7, R80, with the spec's decisions D5, D6, D7, D8, D10 and D15
and its conflict C2; log 7, 8, 9, 10, 11, 15, 16): under every numbering, from every state with
canonical memory, the step answers a next state whose triple `(M, x, pc)`, emitted byte and fault are
those of the pseudocode run on raw bytes over plain functions. -/
def Obligations.StepRefinesTheReferenceMachine : Prop :=
  ∀ (n : Numbering) (s : State), n.Lawful → Memory.wf s.mem = true →
    ∃ t, stepWith n s = .next t ∧ tripleOf t = (refStep n (tripleOf s)).next ∧
      t.charOut = (refStep n (tripleOf s)).emitted ∧ t.faultOut = (refStep n (tripleOf s)).fault ∧
      Memory.wf t.mem = true
end

