-- ==== Sys2Proof/Laws/Decode.lean ====
section
/-! SUPPORT. The lookups of the decoder under a lawful numbering. -/

namespace Sys2Proof

/-- Searching a list that holds a value, by the image of an injective map, finds that value. -/
theorem find_image {α β : Type} [DecidableEq β] {f : α → β} (hf : ∀ a b, f a = f b → a = b)
    {l : List α} {x : α} (hx : x ∈ l) : (l.find? fun y => f y == f x) = some x := by
  induction l with
  | nil => cases hx
  | cons y rest ih =>
    by_cases h : f y = f x
    · simp [hf _ _ h]
    · rcases List.mem_cons.mp hx with rfl | hx
      · exact absurd rfl h
      · simp [h, ih hx]

theorem Opcode.mem_all (o : Opcode) : o ∈ Opcode.all := by
  cases o <;> decide

theorem Mode.mem_all (m : Mode) : m ∈ Mode.all := by
  cases m <;> decide

/-- The byte of an opcode is found as that opcode (R51). -/
theorem opcodeOf_opc {n : Numbering} (hn : n.Lawful) (o : Opcode) :
    opcodeOf n (n.opc o) = some o :=
  find_image hn.opc_injective o.mem_all

/-- The byte of a mode is found as that mode (R49). -/
theorem modeOf_mode {n : Numbering} (hn : n.Lawful) (m : Mode) : modeOf n (n.mode m) = some m :=
  find_image hn.mode_injective m.mem_all

/-- An opcode that is found has the byte that was looked up. -/
theorem opc_of_opcodeOf {n : Numbering} {b : Byte} {o : Opcode} (h : opcodeOf n b = some o) :
    n.opc o = b := by
  simpa using List.find?_some h

theorem mode_of_modeOf {n : Numbering} {b : Byte} {m : Mode} (h : modeOf n b = some m) :
    n.mode m = b := by
  simpa using List.find?_some h

theorem opcodeOf_none {n : Numbering} {b : Byte} : opcodeOf n b = none ↔ ∀ o, n.opc o ≠ b := by
  simp only [opcodeOf, List.find?_eq_none, beq_iff_eq]
  exact ⟨fun h o => h o o.mem_all, fun h o _ => h o⟩

theorem modeOf_none {n : Numbering} {b : Byte} : modeOf n b = none ↔ ∀ m, n.mode m ≠ b := by
  simp only [modeOf, List.find?_eq_none, beq_iff_eq]
  exact ⟨fun h m => h m m.mem_all, fun h m _ => h m⟩

/-- The check on an unknown mode says that no mode has that byte. -/
theorem wf_unknown {n : Numbering} {m b : Byte} :
    (Operand.unknown m b).wf n = true ↔ ∀ k, n.mode k ≠ m := by
  simp only [Operand.wf, List.all_eq_true, bne_iff_ne]
  exact ⟨fun h k => h k k.mem_all, fun h k _ => h k⟩

/-- A window with a known opcode byte decodes to that opcode's instruction. -/
theorem decodeWith_opc {n : Numbering} (hn : n.Lawful) {w : Window} {o : Opcode}
    (h : w.op = n.opc o) : decodeWith n w =
      .ok (instrOf o (decodeOperand n w.mode1 w.byte1) (decodeOperand n w.mode2 w.byte2)) := by
  simp [decodeWith, h, opcodeOf_opc hn]

/-- Everything a successful decode says. -/
theorem decodeWith_ok {n : Numbering} {w : Window} {i : Instr} (h : decodeWith n w = .ok i) :
    ∃ o, n.opc o = w.op ∧
      i = instrOf o (decodeOperand n w.mode1 w.byte1) (decodeOperand n w.mode2 w.byte2) := by
  unfold decodeWith at h
  split at h
  · next o ho => exact ⟨o, opc_of_opcodeOf ho, (Except.ok.inj h).symm⟩
  · cases h

/-- The decoder refuses exactly the opcode bytes outside `OPC` (R54). -/
theorem decodeWith_error {n : Numbering} {w : Window} {e : DecodeError}
    (h : decodeWith n w = .error e) : e = .unknownOpcode w.op ∧ ∀ o, n.opc o ≠ w.op := by
  unfold decodeWith at h
  split at h
  · cases h
  · next ho => exact ⟨(Except.error.inj h).symm, opcodeOf_none.mp ho⟩

end Sys2Proof
end

