-- ==== Sys2Proof/Laws/State.lean ====
section
/-! SUPPORT. One lemma per field of State and operation that updates a state. -/

namespace Sys2Proof.Machine

@[simp] theorem memWrite_mem (a v : Byte) (s : State) : (memWrite a v s).mem = Memory.store s.mem a.toNat v := rfl
@[simp] theorem memWrite_regs (a v : Byte) (s : State) : (memWrite a v s).regs = s.regs := rfl
@[simp] theorem memWrite_pc (a v : Byte) (s : State) : (memWrite a v s).pc = s.pc := rfl
@[simp] theorem memWrite_charOut (a v : Byte) (s : State) : (memWrite a v s).charOut = s.charOut := rfl
@[simp] theorem memWrite_faultOut (a v : Byte) (s : State) : (memWrite a v s).faultOut = s.faultOut := rfl
@[simp] theorem memWrite_emitted (a v : Byte) (s : State) : (memWrite a v s).emitted = s.emitted := rfl
@[simp] theorem memWrite_faults (a v : Byte) (s : State) : (memWrite a v s).faults = s.faults := rfl

@[simp] theorem writeReg_mem (i : Fin 7) (v : Byte) (s : State) : (writeReg i v s).mem = s.mem := rfl
@[simp] theorem writeReg_regs (i : Fin 7) (v : Byte) (s : State) : (writeReg i v s).regs = s.regs.set i.val v := rfl
@[simp] theorem writeReg_pc (i : Fin 7) (v : Byte) (s : State) : (writeReg i v s).pc = s.pc := rfl
@[simp] theorem writeReg_charOut (i : Fin 7) (v : Byte) (s : State) : (writeReg i v s).charOut = s.charOut := rfl
@[simp] theorem writeReg_faultOut (i : Fin 7) (v : Byte) (s : State) : (writeReg i v s).faultOut = s.faultOut := rfl
@[simp] theorem writeReg_emitted (i : Fin 7) (v : Byte) (s : State) : (writeReg i v s).emitted = s.emitted := rfl
@[simp] theorem writeReg_faults (i : Fin 7) (v : Byte) (s : State) : (writeReg i v s).faults = s.faults := rfl

@[simp] theorem setPc_mem (t : Byte) (s : State) : (setPc t s).mem = s.mem := rfl
@[simp] theorem setPc_regs (t : Byte) (s : State) : (setPc t s).regs = s.regs := rfl
@[simp] theorem setPc_pc (t : Byte) (s : State) : (setPc t s).pc = t := rfl
@[simp] theorem setPc_charOut (t : Byte) (s : State) : (setPc t s).charOut = s.charOut := rfl
@[simp] theorem setPc_faultOut (t : Byte) (s : State) : (setPc t s).faultOut = s.faultOut := rfl
@[simp] theorem setPc_emitted (t : Byte) (s : State) : (setPc t s).emitted = s.emitted := rfl
@[simp] theorem setPc_faults (t : Byte) (s : State) : (setPc t s).faults = s.faults := rfl

@[simp] theorem emit_mem (v : Byte) (s : State) : (emit v s).mem = s.mem := rfl
@[simp] theorem emit_regs (v : Byte) (s : State) : (emit v s).regs = s.regs := rfl
@[simp] theorem emit_pc (v : Byte) (s : State) : (emit v s).pc = s.pc := rfl
@[simp] theorem emit_charOut (v : Byte) (s : State) : (emit v s).charOut = some v := rfl
@[simp] theorem emit_faultOut (v : Byte) (s : State) : (emit v s).faultOut = s.faultOut := rfl
@[simp] theorem emit_emitted (v : Byte) (s : State) : (emit v s).emitted = s.emitted ++ [v] := rfl
@[simp] theorem emit_faults (v : Byte) (s : State) : (emit v s).faults = s.faults := rfl

@[simp] theorem raise_mem (f : Fault) (s : State) : (raise f s).mem = s.mem := rfl
@[simp] theorem raise_regs (f : Fault) (s : State) : (raise f s).regs = s.regs := rfl
@[simp] theorem raise_pc (f : Fault) (s : State) : (raise f s).pc = s.pc := rfl
@[simp] theorem raise_charOut (f : Fault) (s : State) : (raise f s).charOut = s.charOut := rfl
@[simp] theorem raise_faultOut (f : Fault) (s : State) : (raise f s).faultOut = some f := rfl
@[simp] theorem raise_emitted (f : Fault) (s : State) : (raise f s).emitted = s.emitted := rfl
@[simp] theorem raise_faults (f : Fault) (s : State) : (raise f s).faults = s.faults ++ [f] := rfl

@[simp] theorem advance_mem (s : State) : (advance s).mem = s.mem := rfl
@[simp] theorem advance_regs (s : State) : (advance s).regs = s.regs := rfl
@[simp] theorem advance_pc (s : State) : (advance s).pc = s.pc + 5 := rfl
@[simp] theorem advance_charOut (s : State) : (advance s).charOut = none := rfl
@[simp] theorem advance_faultOut (s : State) : (advance s).faultOut = none := rfl
@[simp] theorem advance_emitted (s : State) : (advance s).emitted = s.emitted := rfl
@[simp] theorem advance_faults (s : State) : (advance s).faults = s.faults := rfl

@[simp] theorem reset_mem : State.reset.mem = [] := rfl
@[simp] theorem reset_regs : State.reset.regs = Vector.replicate 8 0 := rfl
@[simp] theorem reset_pc : State.reset.pc = 0 := rfl
@[simp] theorem reset_charOut : State.reset.charOut = none := rfl
@[simp] theorem reset_faultOut : State.reset.faultOut = none := rfl
@[simp] theorem reset_emitted : State.reset.emitted = [] := rfl
@[simp] theorem reset_faults : State.reset.faults = [] := rfl

/-! Register reads through each operation. -/

theorem readReg_eq (i : Fin 7) (s : State) : readReg i s = s.regs[i.val] := rfl

@[simp] theorem readReg_writeReg_same (i : Fin 7) (v : Byte) (s : State) :
    readReg i (writeReg i v s) = v := by
  simp [readReg]

theorem readReg_writeReg_ne {i j : Fin 7} (h : j ≠ i) (v : Byte) (s : State) :
    readReg j (writeReg i v s) = readReg j s := by
  have : i.val ≠ j.val := fun e => h (Fin.ext e.symm)
  simp [readReg, this]

@[simp] theorem readReg_memWrite (i : Fin 7) (a v : Byte) (s : State) :
    readReg i (memWrite a v s) = readReg i s := rfl

@[simp] theorem readReg_advance (i : Fin 7) (s : State) : readReg i (advance s) = readReg i s := rfl

/-- A usable register is never the eighth cell (R13). -/
@[simp] theorem writeReg_reg7 (i : Fin 7) (v : Byte) (s : State) :
    (writeReg i v s).regs[7] = s.regs[7] := by
  have : i.val ≠ 7 := by omega
  simp [this]

/-! Memory reads through the operations that leave memory alone. -/

@[simp] theorem memRead_writeReg (a : Byte) (i : Fin 7) (v : Byte) (s : State) :
    memRead a (writeReg i v s) = memRead a s := rfl

@[simp] theorem memRead_advance (a : Byte) (s : State) : memRead a (advance s) = memRead a s := rfl

end Sys2Proof.Machine
end

