-- ==== Sys2Proof/Laws/Memory.lean ====
section
/-! SUPPORT. Memory: the laws of `lookup` and `store`, and that every memory operation keeps the canonical
form. -/

namespace Sys2Proof.Machine

theorem Memory.wfFrom_mono {lo lo' : Nat} {m : Memory} (h : lo' ≤ lo)
    (hw : Memory.wfFrom lo m = true) : Memory.wfFrom lo' m = true := by
  cases m with
  | nil => rfl
  | cons c rest =>
    obtain ⟨k, w⟩ := c
    simp only [Memory.wfFrom, Bool.and_eq_true, decide_eq_true_eq] at hw ⊢
    exact ⟨⟨⟨by omega, hw.1.1.2⟩, hw.1.2⟩, hw.2⟩

/-- Below its first possible address a canonical memory lists nothing. -/
theorem Memory.lookup_below {lo : Nat} {m : Memory} (hw : Memory.wfFrom lo m = true) {a : Nat}
    (h : a < lo) : Memory.lookup m a = unlistedByte := by
  induction m generalizing lo with
  | nil => rfl
  | cons c rest ih =>
    obtain ⟨k, w⟩ := c
    simp only [Memory.wfFrom, Bool.and_eq_true, decide_eq_true_eq] at hw
    have hk : k ≠ a := by omega
    simp only [Memory.lookup, hk, if_false]
    exact ih hw.2 (by omega)

theorem Memory.lookup_prepend_ne {a b : Nat} (h : b ≠ a) (v : Byte) (m : Memory) :
    Memory.lookup (Memory.prepend a v m) b = Memory.lookup m b := by
  unfold Memory.prepend
  split
  · rfl
  · simp [Memory.lookup, h.symm]

theorem Memory.lookup_prepend_same {lo a : Nat} {m : Memory} (hw : Memory.wfFrom lo m = true)
    (h : a < lo) (v : Byte) : Memory.lookup (Memory.prepend a v m) a = v := by
  unfold Memory.prepend
  split
  · next hv => rw [Memory.lookup_below hw h, hv]
  · simp [Memory.lookup]

/-- A store leaves every other address alone, in any memory (R34). -/
theorem Memory.lookup_store_ne {a b : Nat} (h : b ≠ a) (v : Byte) (m : Memory) :
    Memory.lookup (Memory.store m a v) b = Memory.lookup m b := by
  induction m with
  | nil => exact Memory.lookup_prepend_ne h v []
  | cons c rest ih =>
    obtain ⟨k, w⟩ := c
    unfold Memory.store
    split
    · exact Memory.lookup_prepend_ne h v _
    · split
      · next hk => subst hk; simp [Memory.lookup_prepend_ne h, Memory.lookup, h.symm]
      · simp [Memory.lookup, ih]

/-- A read after a write to the same place gives the value written (R34). -/
theorem Memory.lookup_store_same {lo : Nat} {m : Memory} (hw : Memory.wfFrom lo m = true) (a : Nat)
    (v : Byte) : Memory.lookup (Memory.store m a v) a = v := by
  induction m generalizing lo with
  | nil => exact Memory.lookup_prepend_same (lo := a + 1) rfl (by omega) v
  | cons c rest ih =>
    obtain ⟨k, w⟩ := c
    have hw' := hw
    simp only [Memory.wfFrom, Bool.and_eq_true, decide_eq_true_eq] at hw'
    obtain ⟨⟨⟨h1, h2⟩, h3⟩, h4⟩ := hw'
    unfold Memory.store
    split
    · next hlt =>
      refine Memory.lookup_prepend_same (lo := k) ?_ hlt v
      simp [Memory.wfFrom, h2, h3, h4]
    · split
      · next hk => subst hk; exact Memory.lookup_prepend_same h4 (by omega) v
      · next hne =>
        simp only [Memory.lookup, Ne.symm hne, if_false]
        exact ih h4

theorem Memory.wfFrom_prepend {lo a : Nat} {m : Memory} (hw : Memory.wfFrom (a + 1) m = true)
    (hlo : lo ≤ a) (ha : a < 256) (v : Byte) : Memory.wfFrom lo (Memory.prepend a v m) = true := by
  unfold Memory.prepend
  split
  · exact Memory.wfFrom_mono (by omega) hw
  · next hv => simp [Memory.wfFrom, hlo, ha, hv, hw]

theorem Memory.wfFrom_store {lo : Nat} {m : Memory} (hw : Memory.wfFrom lo m = true) {a : Nat}
    (hlo : lo ≤ a) (ha : a < 256) (v : Byte) : Memory.wfFrom lo (Memory.store m a v) = true := by
  induction m generalizing lo with
  | nil => exact Memory.wfFrom_prepend rfl hlo ha v
  | cons c rest ih =>
    obtain ⟨k, w⟩ := c
    simp only [Memory.wfFrom, Bool.and_eq_true, decide_eq_true_eq] at hw
    obtain ⟨⟨⟨h1, h2⟩, h3⟩, h4⟩ := hw
    unfold Memory.store
    split
    · next hlt =>
      refine Memory.wfFrom_prepend ?_ hlo ha v
      have : a + 1 ≤ k := hlt
      simp [Memory.wfFrom, this, h2, h3, h4]
    · split
      · next hk => subst hk; exact Memory.wfFrom_prepend h4 hlo ha v
      · simp [Memory.wfFrom, h1, h2, h3, ih h4 (show k + 1 ≤ a by omega)]

/-- A store keeps the canonical form. -/
theorem Memory.wf_store {m : Memory} (hw : Memory.wf m = true) (a v : Byte) :
    Memory.wf (Memory.store m a.toNat v) = true :=
  Memory.wfFrom_store hw (Nat.zero_le _) a.isLt v

@[simp] theorem Memory.wf_nil : Memory.wf [] = true := rfl

@[simp] theorem Memory.lookup_nil (a : Nat) : Memory.lookup [] a = 0 := rfl

/-- `MemWrite` keeps the canonical form. -/
theorem memWrite_wf {s : State} (hw : Memory.wf s.mem = true) (a v : Byte) :
    Memory.wf (memWrite a v s).mem = true :=
  Memory.wf_store hw a v

/-- The bytes of a placed window keep the canonical form. -/
theorem placeWindow_wf {s : State} (hw : Memory.wf s.mem = true) (w : Window) :
    Memory.wf (placeWindow w s).mem = true := by
  unfold placeWindow
  exact memWrite_wf (memWrite_wf (memWrite_wf (memWrite_wf (memWrite_wf hw _ _) _ _) _ _) _ _) _ _

theorem loadFrom_wf (image : List Byte) (a : Byte) {s : State} (hw : Memory.wf s.mem = true) :
    Memory.wf (loadFrom a image s).mem = true := by
  induction image generalizing a s with
  | nil => exact hw
  | cons v rest ih => exact ih (a + 1) (memWrite_wf hw a v)

/-- The load keeps the canonical form. -/
theorem load_wf (image : List Byte) {s : State} (hw : Memory.wf s.mem = true) :
    Memory.wf (load image s).mem = true :=
  loadFrom_wf _ _ hw

/-- Everything a load can change is memory (R153). -/
theorem loadFrom_eq (image : List Byte) (a : Byte) (s : State) :
    loadFrom a image s = { s with mem := (loadFrom a image s).mem } := by
  induction image generalizing a s with
  | nil => rfl
  | cons v rest ih =>
    show loadFrom (a + 1) rest (memWrite a v s) = _
    rw [ih]
    rfl

/-- Everything a placed window changes is memory. -/
theorem placeWindow_eq (w : Window) (s : State) :
    placeWindow w s = { s with mem := (placeWindow w s).mem } := rfl

theorem memRead_memWrite_same {s : State} (hw : Memory.wf s.mem = true) (a v : Byte) :
    memRead a (memWrite a v s) = v :=
  Memory.lookup_store_same hw _ _

theorem memRead_memWrite_ne {a b : Byte} (h : b ≠ a) (v : Byte) (s : State) :
    memRead b (memWrite a v s) = memRead b s :=
  Memory.lookup_store_ne (fun e => h (BitVec.eq_of_toNat_eq e)) v s.mem

/-- The bytes placed at `pc` are the bytes the next step fetches (R40). -/
theorem fetch_placeWindow {s : State} (hw : Memory.wf s.mem = true) (w : Window) :
    fetch (placeWindow w s) = w := by
  have h1 := memWrite_wf hw s.pc w.op
  have h2 := memWrite_wf h1 (s.pc + 1) w.mode1
  have h3 := memWrite_wf h2 (s.pc + 2) w.byte1
  have h4 := memWrite_wf h3 (s.pc + 3) w.mode2
  have e0 : memRead s.pc (placeWindow w s) = w.op := by
    unfold placeWindow
    rw [memRead_memWrite_ne (by simp), memRead_memWrite_ne (by simp), memRead_memWrite_ne (by simp),
      memRead_memWrite_ne (by simp), memRead_memWrite_same hw]
  have e1 : memRead (s.pc + 1) (placeWindow w s) = w.mode1 := by
    unfold placeWindow
    rw [memRead_memWrite_ne (by simp), memRead_memWrite_ne (by simp), memRead_memWrite_ne (by simp),
      memRead_memWrite_same h1]
  have e2 : memRead (s.pc + 2) (placeWindow w s) = w.byte1 := by
    unfold placeWindow
    rw [memRead_memWrite_ne (by simp), memRead_memWrite_ne (by simp), memRead_memWrite_same h2]
  have e3 : memRead (s.pc + 3) (placeWindow w s) = w.mode2 := by
    unfold placeWindow
    rw [memRead_memWrite_ne (by simp), memRead_memWrite_same h3]
  have e4 : memRead (s.pc + 4) (placeWindow w s) = w.byte2 := by
    unfold placeWindow
    rw [memRead_memWrite_same h4]
  have hpc : (placeWindow w s).pc = s.pc := rfl
  unfold fetch
  rw [hpc, e0, e1, e2, e3, e4]

end Sys2Proof.Machine
end

