-- ==== Sys2Proof/Laws/Operands.lean ====
section
/-! SUPPORT. The resolver: one lemma per way an operand resolves, and everything a write can do. -/

namespace Sys2Proof.Machine

theorem regIndex_ok {b : Byte} (h : b.toNat < 7) : regIndex b = .ok ⟨b.toNat, h⟩ := by
  simp [regIndex, h]

theorem regIndex_error {b : Byte} (h : 7 ≤ b.toNat) : regIndex b = .error (.badRegister b) := by
  simp [regIndex, Nat.not_lt.mpr h]

@[simp] theorem resolve_const (b : Byte) (s : State) : resolve (.const b) s = .ok (.value b) := rfl

@[simp] theorem resolve_memC (b : Byte) (s : State) : resolve (.memC b) s = .ok (.cell b) := rfl

@[simp] theorem resolve_unknown (m b : Byte) (s : State) :
    resolve (.unknown m b) s = .error .unknownAddressingMode := rfl

theorem resolve_reg {b : Byte} (h : b.toNat < 7) (s : State) :
    resolve (.reg b) s = .ok (.register ⟨b.toNat, h⟩) := by
  simp [resolve, regIndex_ok h, bind, Except.bind]

theorem resolve_memR {b : Byte} (h : b.toNat < 7) (s : State) :
    resolve (.memR b) s = .ok (.cell (readReg ⟨b.toNat, h⟩ s)) := by
  simp [resolve, regIndex_ok h, bind, Except.bind]

theorem resolve_reg_bad {b : Byte} (h : 7 ≤ b.toNat) (s : State) :
    resolve (.reg b) s = .error (.badRegister b) := by
  simp [resolve, regIndex_error h, bind, Except.bind]

theorem resolve_memR_bad {b : Byte} (h : 7 ≤ b.toNat) (s : State) :
    resolve (.memR b) s = .error (.badRegister b) := by
  simp [resolve, regIndex_error h, bind, Except.bind]

/-- An operand that resolves can be read. -/
theorem readOperand_of_resolve {o : Operand} {s : State} {p : Place} (h : resolve o s = .ok p) :
    readOperand o s = .ok (readPlace p s) := by
  simp [readOperand, h, bind, Except.bind]

theorem readOperand_of_resolve_error {o : Operand} {s : State} {f : Fault}
    (h : resolve o s = .error f) : readOperand o s = .error f := by
  simp [readOperand, h, bind, Except.bind]

theorem writeOperand_of_resolve {o : Operand} {s : State} {p : Place} (h : resolve o s = .ok p)
    (v : Byte) : writeOperand o v s = writePlace p v s := by
  simp [writeOperand, h, bind, Except.bind]

theorem writeOperand_of_resolve_error {o : Operand} {s : State} {f : Fault}
    (h : resolve o s = .error f) (v : Byte) : writeOperand o v s = .error f := by
  simp [writeOperand, h, bind, Except.bind]

/-- Everything a successful read says: the operand resolved, and the value is what its place holds. -/
theorem readOperand_ok {o : Operand} {s : State} {v : Byte} (h : readOperand o s = .ok v) :
    ∃ p, resolve o s = .ok p ∧ v = readPlace p s := by
  cases hr : resolve o s with
  | error f => rw [readOperand_of_resolve_error hr] at h; cases h
  | ok p => rw [readOperand_of_resolve hr] at h; exact ⟨p, rfl, (Except.ok.inj h).symm⟩

theorem readOperand_error {o : Operand} {s : State} {f : Fault} (h : readOperand o s = .error f) :
    resolve o s = .error f := by
  cases hr : resolve o s with
  | error g => rw [readOperand_of_resolve_error hr] at h; rw [Except.error.inj h]
  | ok p => rw [readOperand_of_resolve hr] at h; cases h

/-- The faults of resolving an operand (R76). -/
theorem resolve_error {o : Operand} {s : State} {f : Fault} (h : resolve o s = .error f) :
    f = .unknownAddressingMode ∨ ∃ b, f = .badRegister b ∧ 7 ≤ b.toNat := by
  cases o with
  | const b => cases h
  | memC b => cases h
  | unknown m b => cases h; exact .inl rfl
  | reg b =>
    by_cases hb : b.toNat < 7
    · rw [resolve_reg hb] at h; cases h
    · rw [resolve_reg_bad (Nat.not_lt.mp hb)] at h; cases h; exact .inr ⟨b, rfl, Nat.not_lt.mp hb⟩
  | memR b =>
    by_cases hb : b.toNat < 7
    · rw [resolve_memR hb] at h; cases h
    · rw [resolve_memR_bad (Nat.not_lt.mp hb)] at h; cases h
      exact .inr ⟨b, rfl, Nat.not_lt.mp hb⟩

/-- Resolving looks at nothing but the registers. -/
theorem resolve_congr {s t : State} (o : Operand) (h : ∀ i, readReg i t = readReg i s) :
    resolve o t = resolve o s := by
  cases o with
  | const b => rfl
  | memC b => rfl
  | unknown m b => rfl
  | reg b => rfl
  | memR b =>
    by_cases hb : b.toNat < 7
    · rw [resolve_memR hb, resolve_memR hb, h]
    · rw [resolve_memR_bad (Nat.not_lt.mp hb), resolve_memR_bad (Nat.not_lt.mp hb)]

/-- Reading an operand looks at nothing but memory and the usable registers. -/
theorem readOperand_congr {s t : State} (o : Operand) (hm : t.mem = s.mem)
    (h : ∀ i, readReg i t = readReg i s) : readOperand o t = readOperand o s := by
  have hr := resolve_congr o h
  cases hs : resolve o s with
  | error f => rw [readOperand_of_resolve_error hs, readOperand_of_resolve_error (hr.trans hs)]
  | ok p =>
    rw [readOperand_of_resolve hs, readOperand_of_resolve (hr.trans hs)]
    cases p with
    | value v => rfl
    | register i => simp [readPlace, h]
    | cell a => simp [readPlace, memRead, hm]

/-- Everything a successful write can do (R77): one usable register or one memory cell is written, the one
the operand resolves to. -/
theorem writeOperand_cases {o : Operand} {v : Byte} {s t : State} (h : writeOperand o v s = .ok t) :
    (∃ i, resolve o s = .ok (.register i) ∧ t = writeReg i v s) ∨
    (∃ a, resolve o s = .ok (.cell a) ∧ t = memWrite a v s) := by
  cases hr : resolve o s with
  | error f => rw [writeOperand_of_resolve_error hr] at h; cases h
  | ok p =>
    rw [writeOperand_of_resolve hr] at h
    cases p with
    | value c => cases h
    | register i => exact .inl ⟨i, rfl, (Except.ok.inj h).symm⟩
    | cell a => exact .inr ⟨a, rfl, (Except.ok.inj h).symm⟩

/-- The faults of a write (R71). -/
theorem writeOperand_error {o : Operand} {v : Byte} {s : State} {f : Fault}
    (h : writeOperand o v s = .error f) : f = .assignToConstant ∨ resolve o s = .error f := by
  cases hr : resolve o s with
  | error g => rw [writeOperand_of_resolve_error hr] at h; rw [Except.error.inj h]; exact .inr rfl
  | ok p =>
    rw [writeOperand_of_resolve hr] at h
    cases p with
    | value c => exact .inl (Except.error.inj h).symm
    | register i => cases h
    | cell a => cases h

/-- A destination that resolves and passes the check of R90 step 3 can be written. -/
theorem writable_place {o : Operand} {s : State} {p : Place} (h : resolve o s = .ok p)
    (hw : checkWritable o = .ok ()) (v : Byte) : ∃ t, writePlace p v s = .ok t := by
  cases p with
  | register i => exact ⟨_, rfl⟩
  | cell a => exact ⟨_, rfl⟩
  | value c =>
    cases o with
    | const b => cases hw
    | memC b => cases h
    | unknown m b => cases h
    | reg b =>
      by_cases hb : b.toNat < 7
      · rw [resolve_reg hb] at h; cases h
      · rw [resolve_reg_bad (Nat.not_lt.mp hb)] at h; cases h
    | memR b =>
      by_cases hb : b.toNat < 7
      · rw [resolve_memR hb] at h; cases h
      · rw [resolve_memR_bad (Nat.not_lt.mp hb)] at h; cases h

end Sys2Proof.Machine
end

