-- ==== Sys2Proof/Laws/Instr.lean ====
section
/-! SUPPORT. Everything an instruction can do: the cases of the binary operations, MOVE, PRINT and JUMP, and
from them the cases of `exec`. -/

namespace Sys2Proof.Machine

@[simp] theorem complete_ok (s t : State) : complete s (.ok t) = .next t := rfl

@[simp] theorem complete_error (s : State) (f : Fault) :
    complete s (.error f) = .next (raise f s) := rfl

/-- An instruction that completes ends in its own state or in its fault's. -/
theorem complete_next {s t : State} {r : Except Fault State} (h : complete s r = .next t) :
    r = .ok t ∨ ∃ f, r = .error f ∧ t = raise f s := by
  cases r with
  | ok u => cases h; exact .inl rfl
  | error f => cases h; exact .inr ⟨f, rfl, rfl⟩

/-- A binary operation, given what its parts answer (R90). -/
theorem binaryOp_ok {f : Byte → Byte → Except Fault Byte} {src dest : Operand} {s : State}
    {a d r : Byte} (ha : readOperand src s = .ok a) (hd : readOperand dest s = .ok d)
    (hw : checkWritable dest = .ok ()) (hf : f d a = .ok r) :
    binaryOp f src dest s = writeOperand dest r s := by
  simp [binaryOp, ha, hd, hw, hf, bind, Except.bind]

theorem binaryOp_src_error {f : Byte → Byte → Except Fault Byte} {src dest : Operand} {s : State}
    {g : Fault} (ha : readOperand src s = .error g) : binaryOp f src dest s = .error g := by
  simp [binaryOp, ha, bind, Except.bind]

theorem binaryOp_dest_error {f : Byte → Byte → Except Fault Byte} {src dest : Operand} {s : State}
    {a : Byte} {g : Fault} (ha : readOperand src s = .ok a) (hd : readOperand dest s = .error g) :
    binaryOp f src dest s = .error g := by
  simp [binaryOp, ha, hd, bind, Except.bind]

theorem binaryOp_not_writable {f : Byte → Byte → Except Fault Byte} {src dest : Operand} {s : State}
    {a d : Byte} {g : Fault} (ha : readOperand src s = .ok a) (hd : readOperand dest s = .ok d)
    (hw : checkWritable dest = .error g) : binaryOp f src dest s = .error g := by
  simp [binaryOp, ha, hd, hw, bind, Except.bind]

theorem binaryOp_compute_error {f : Byte → Byte → Except Fault Byte} {src dest : Operand}
    {s : State} {a d : Byte} {g : Fault} (ha : readOperand src s = .ok a)
    (hd : readOperand dest s = .ok d) (hw : checkWritable dest = .ok ()) (hf : f d a = .error g) :
    binaryOp f src dest s = .error g := by
  simp [binaryOp, ha, hd, hw, hf, bind, Except.bind]

/-- Everything a binary operation that succeeds did. -/
theorem binaryOp_cases {f : Byte → Byte → Except Fault Byte} {src dest : Operand} {s t : State}
    (h : binaryOp f src dest s = .ok t) :
    ∃ a d r, readOperand src s = .ok a ∧ readOperand dest s = .ok d ∧
      checkWritable dest = .ok () ∧ f d a = .ok r ∧ writeOperand dest r s = .ok t := by
  cases ha : readOperand src s with
  | error g => rw [binaryOp_src_error ha] at h; cases h
  | ok a =>
    cases hd : readOperand dest s with
    | error g => rw [binaryOp_dest_error ha hd] at h; cases h
    | ok d =>
      cases hw : checkWritable dest with
      | error g => rw [binaryOp_not_writable ha hd hw] at h; cases h
      | ok u =>
        cases hf : f d a with
        | error g => rw [binaryOp_compute_error ha hd hw hf] at h; cases h
        | ok r =>
          rw [binaryOp_ok ha hd hw hf] at h
          exact ⟨a, d, r, rfl, rfl, rfl, hf, h⟩

/-- Everything a binary operation that faults can report. -/
theorem binaryOp_error {f : Byte → Byte → Except Fault Byte} {src dest : Operand} {s : State}
    {g : Fault} (h : binaryOp f src dest s = .error g) :
    readOperand src s = .error g ∨ readOperand dest s = .error g ∨ g = .assignToConstant ∨
      ∃ a d, readOperand src s = .ok a ∧ readOperand dest s = .ok d ∧ f d a = .error g := by
  cases ha : readOperand src s with
  | error g' => rw [binaryOp_src_error ha] at h; cases h; exact .inl rfl
  | ok a =>
    cases hd : readOperand dest s with
    | error g' => rw [binaryOp_dest_error ha hd] at h; cases h; exact .inr (.inl rfl)
    | ok d =>
      cases hw : checkWritable dest with
      | error g' =>
        rw [binaryOp_not_writable ha hd hw] at h
        cases h
        cases dest <;> cases hw
        exact .inr (.inr (.inl rfl))
      | ok u =>
        cases hf : f d a with
        | error g' =>
          rw [binaryOp_compute_error ha hd hw hf] at h
          cases h
          exact .inr (.inr (.inr ⟨a, d, rfl, rfl, hf⟩))
        | ok r =>
          rw [binaryOp_ok ha hd hw hf] at h
          obtain ⟨p, hp, -⟩ := readOperand_ok hd
          obtain ⟨t, ht⟩ := writable_place hp hw r
          rw [writeOperand_of_resolve hp, ht] at h
          cases h

theorem moveOp_ok {src dest : Operand} {s : State} {v : Byte} (h : readOperand src s = .ok v) :
    moveOp src dest s = writeOperand dest v s := by
  simp [moveOp, h, bind, Except.bind]

theorem moveOp_src_error {src dest : Operand} {s : State} {g : Fault}
    (h : readOperand src s = .error g) : moveOp src dest s = .error g := by
  simp [moveOp, h, bind, Except.bind]

theorem printOp_ok {src : Operand} {s : State} {v : Byte} (h : readOperand src s = .ok v) :
    printOp src s = .ok (emit v s) := by
  simp [printOp, h, bind, Except.bind]

theorem printOp_error {src : Operand} {s : State} {g : Fault} (h : readOperand src s = .error g) :
    printOp src s = .error g := by
  simp [printOp, h, bind, Except.bind]

theorem jumpOp_ok {src : Operand} {s : State} {v : Byte} (h : readOperand src s = .ok v) :
    jumpOp src s = .ok (setPc v s) := by
  simp [jumpOp, h, bind, Except.bind]

theorem jumpOp_error {src : Operand} {s : State} {g : Fault} (h : readOperand src s = .error g) :
    jumpOp src s = .error g := by
  simp [jumpOp, h, bind, Except.bind]

/-- A fault an instruction can report: never OutOfInstructions (R140) and never UnknownInstruction, which
is the dispatcher's. -/
def InstrFault (f : Fault) : Prop :=
  f = .explicitCrash ∨ f = .hitZero ∨ f = .unknownAddressingMode ∨ f = .assignToConstant ∨
    ∃ b, f = .badRegister b ∧ 7 ≤ b.toNat

theorem instrFault_of_resolve {o : Operand} {s : State} {f : Fault} (h : resolve o s = .error f) :
    InstrFault f := by
  rcases resolve_error h with rfl | h
  · exact .inr (.inr (.inl rfl))
  · exact .inr (.inr (.inr (.inr h)))

/-- The shapes of what one instruction can leave of a state. -/
inductive Effect (i : Instr) (s : State) : State → Prop where
  /-- IF and CALL. -/
  | nothing : (i = .ifOp ∨ i = .call) → Effect i s s
  /-- A fault. -/
  | raised (f : Fault) : InstrFault f → Effect i s (raise f s)
  /-- PRINT. -/
  | emitted (src : Operand) (v : Byte) : i = .print src → readOperand src s = .ok v →
      Effect i s (emit v s)
  /-- JUMP. -/
  | jumped (src : Operand) (v : Byte) : i = .jump src → readOperand src s = .ok v →
      Effect i s (setPc v s)
  /-- A write to operand 2. -/
  | wroteReg (dest : Operand) (r : Fin 7) (v : Byte) : operand2 i = some dest →
      resolve dest s = .ok (.register r) → Effect i s (writeReg r v s)
  | wroteCell (dest : Operand) (a v : Byte) : operand2 i = some dest →
      resolve dest s = .ok (.cell a) → Effect i s (memWrite a v s)

theorem effect_of_write {i : Instr} {dest : Operand} {v : Byte} {s t : State}
    (hi : operand2 i = some dest) (h : writeOperand dest v s = .ok t) : Effect i s t := by
  rcases writeOperand_cases h with ⟨r, hr, rfl⟩ | ⟨a, hr, rfl⟩
  · exact .wroteReg dest r v hi hr
  · exact .wroteCell dest a v hi hr

theorem effect_of_runBinary {i : Instr} {f : Byte → Byte → Except Fault Byte} {src dest : Operand}
    {s t : State} (hi : operand2 i = some dest) (hf : ∀ d a g, f d a = .error g → g = .hitZero)
    (h : runBinary f src dest s = .next t) : Effect i s t := by
  rcases complete_next h with h | ⟨g, hg, rfl⟩
  · obtain ⟨a, d, r, -, -, -, -, hw⟩ := binaryOp_cases h
    exact effect_of_write hi hw
  · refine .raised g ?_
    rcases binaryOp_error hg with h | h | rfl | ⟨a, d, -, -, h⟩
    · exact instrFault_of_resolve (readOperand_error h)
    · exact instrFault_of_resolve (readOperand_error h)
    · exact .inr (.inr (.inr (.inl rfl)))
    · exact .inr (.inl (hf d a g h))

theorem aluDiv_error {d a : Byte} {g : Fault} (h : aluDiv d a = .error g) : g = .hitZero := by
  unfold aluDiv at h
  split at h
  · exact (Except.error.inj h).symm
  · cases h

theorem aluMod_error {d a : Byte} {g : Fault} (h : aluMod d a = .error g) : g = .hitZero := by
  unfold aluMod at h
  split at h
  · exact (Except.error.inj h).symm
  · cases h

/-- Everything an instruction can do, once for all 14. -/
theorem exec_effect {i : Instr} {s t : State} (h : exec i s = .next t) : Effect i s t := by
  cases i with
  | crash => cases h; exact .raised _ (.inl rfl)
  | ifOp => cases h; exact .nothing (.inl rfl)
  | call => cases h; exact .nothing (.inr rfl)
  | print src =>
    change complete s (printOp src s) = .next t at h
    cases hr : readOperand src s with
    | ok v => rw [printOp_ok hr] at h; cases h; exact .emitted src v rfl hr
    | error g =>
      rw [printOp_error hr] at h; cases h
      exact .raised g (instrFault_of_resolve (readOperand_error hr))
  | jump src =>
    change complete s (jumpOp src s) = .next t at h
    cases hr : readOperand src s with
    | ok v => rw [jumpOp_ok hr] at h; cases h; exact .jumped src v rfl hr
    | error g =>
      rw [jumpOp_error hr] at h; cases h
      exact .raised g (instrFault_of_resolve (readOperand_error hr))
  | move src dest =>
    change complete s (moveOp src dest s) = .next t at h
    cases hr : readOperand src s with
    | error g =>
      rw [moveOp_src_error hr] at h; cases h
      exact .raised g (instrFault_of_resolve (readOperand_error hr))
    | ok v =>
      rw [moveOp_ok hr] at h
      rcases complete_next h with h | ⟨g, hg, rfl⟩
      · exact effect_of_write rfl h
      · refine .raised g ?_
        rcases writeOperand_error hg with rfl | h
        · exact .inr (.inr (.inr (.inl rfl)))
        · exact instrFault_of_resolve h
  | add src dest => exact effect_of_runBinary rfl (fun _ _ _ e => by cases e) h
  | sub src dest => exact effect_of_runBinary rfl (fun _ _ _ e => by cases e) h
  | mul src dest => exact effect_of_runBinary rfl (fun _ _ _ e => by cases e) h
  | div src dest => exact effect_of_runBinary rfl (fun _ _ _ => aluDiv_error) h
  | mod src dest => exact effect_of_runBinary rfl (fun _ _ _ => aluMod_error) h
  | cmp src dest => exact effect_of_runBinary rfl (fun _ _ _ e => by cases e) h
  | and src dest => exact effect_of_runBinary rfl (fun _ _ _ e => by cases e) h
  | or src dest => exact effect_of_runBinary rfl (fun _ _ _ e => by cases e) h

/-- Ending an instruction always answers a next state. -/
theorem complete_answers (s : State) (r : Except Fault State) : ∃ t, complete s r = .next t := by
  cases r with
  | ok t => exact ⟨t, rfl⟩
  | error f => exact ⟨_, rfl⟩

end Sys2Proof.Machine
end

