-- ==== Sys2Proof/Laws/PerInstr.lean ====
section
/-! SUPPORT. The per-instruction family OpcodeByte: the encoder writes a byte that the decoder's opcode
lookup reads back as the instruction's own opcode, under every lawful numbering. -/

namespace Sys2Proof.Laws.OpcodeByte

/-- The opcode byte of the encoded instruction selects the instruction's opcode (R51, R52). -/
def Statement (i : Instr) : Prop :=
  ∀ n : Numbering, n.Lawful → opcodeOf n (encodeWith n i).op = some (opcodeName i)

theorem crash : Statement .crash := fun _ h => opcodeOf_opc h _

theorem print (a : Operand) : Statement (.print a) := fun _ h => opcodeOf_opc h _

theorem add (a b : Operand) : Statement (.add a b) := fun _ h => opcodeOf_opc h _

theorem sub (a b : Operand) : Statement (.sub a b) := fun _ h => opcodeOf_opc h _

theorem mul (a b : Operand) : Statement (.mul a b) := fun _ h => opcodeOf_opc h _

theorem div (a b : Operand) : Statement (.div a b) := fun _ h => opcodeOf_opc h _

theorem mod (a b : Operand) : Statement (.mod a b) := fun _ h => opcodeOf_opc h _

theorem jump (a : Operand) : Statement (.jump a) := fun _ h => opcodeOf_opc h _

theorem cmp (a b : Operand) : Statement (.cmp a b) := fun _ h => opcodeOf_opc h _

theorem and (a b : Operand) : Statement (.and a b) := fun _ h => opcodeOf_opc h _

theorem or (a b : Operand) : Statement (.or a b) := fun _ h => opcodeOf_opc h _

theorem ifOp : Statement .ifOp := fun _ h => opcodeOf_opc h _

theorem call : Statement .call := fun _ h => opcodeOf_opc h _

theorem move (a b : Operand) : Statement (.move a b) := fun _ h => opcodeOf_opc h _

end Sys2Proof.Laws.OpcodeByte
end

