-- ==== Sys2Proof/Laws/Run.lean ====
section
/-! SUPPORT. Runs of host moves, one move at a time: what `hostRun` and `SafeRun` say of an empty run, of a
first move and of two runs one after the other. -/

namespace Sys2Proof.Machine

@[simp] theorem hostRun_nil (n : Numbering) (s : State) : hostRun n [] s = .next s := rfl

/-- A run whose first move completes is the rest of it from there. -/
theorem hostRun_cons {n : Numbering} {m : HostMove} {s t : State} (h : hostMove n m s = .next t)
    (rest : List HostMove) : hostRun n (m :: rest) s = hostRun n rest t := by
  rw [hostRun, h]

/-- A run whose first part completes is its later part from there. -/
theorem hostRun_append {n : Numbering} {moves : List HostMove} {s t : State}
    (h : hostRun n moves s = .next t) (more : List HostMove) :
    hostRun n (moves ++ more) s = hostRun n more t := by
  induction moves generalizing s with
  | nil => cases h; rfl
  | cons m rest ih =>
    rw [hostRun] at h
    rw [List.cons_append, hostRun]
    split at h
    · exact ih h
    · cases h
    · cases h

@[simp] theorem safeRun_nil (n : Numbering) (s : State) : SafeRun n [] s := trivial

/-- A run is safe when its first move completes without a fault and the rest is safe from there. -/
theorem safeRun_cons {n : Numbering} {m : HostMove} {rest : List HostMove} {s : State} :
    SafeRun n (m :: rest) s ↔
      ∃ t, hostMove n m s = .next t ∧ (m = .step → t.faultOut = none) ∧ SafeRun n rest t := Iff.rfl

/-- A safe run completes. -/
theorem safeRun_completes {n : Numbering} {moves : List HostMove} {s : State}
    (h : SafeRun n moves s) : ∃ t, hostRun n moves s = .next t := by
  induction moves generalizing s with
  | nil => exact ⟨s, rfl⟩
  | cons m rest ih =>
    obtain ⟨t, ht, -, hr⟩ := h
    rw [hostRun_cons ht]
    exact ih hr

end Sys2Proof.Machine
end

