-- ==== Sys2Proof/Laws/Step.lean ====
section
/-! SUPPORT. The step: everything it can do, said once. -/

namespace Sys2Proof.Machine

/-- A step that decodes runs the instruction in the advanced state. -/
theorem stepWith_ok {n : Numbering} {s : State} {i : Instr} (h : decodeWith n (fetch s) = .ok i) :
    stepWith n s = exec i (advance s) := by
  simp [stepWith, h]

/-- A step that does not decode raises UnknownInstruction with the start address (R85). -/
theorem stepWith_error {n : Numbering} {s : State} {e : DecodeError}
    (h : decodeWith n (fetch s) = .error e) : stepWith n s =
      .next (raise (.unknownInstruction (fetch s).op s.pc) (advance s)) := by
  obtain ⟨rfl, -⟩ := decodeWith_error h
  simp [stepWith, h, execUnknown]

/-- Everything a step can do: an instruction's effect in the advanced state, or UnknownInstruction. -/
theorem stepWith_cases {n : Numbering} {s t : State} (h : stepWith n s = .next t) :
    (∃ i, decodeWith n (fetch s) = .ok i ∧ Effect i (advance s) t) ∨
    ((∀ o, n.opc o ≠ (fetch s).op) ∧
      t = raise (.unknownInstruction (fetch s).op s.pc) (advance s)) := by
  cases hd : decodeWith n (fetch s) with
  | ok i => rw [stepWith_ok hd] at h; exact .inl ⟨i, rfl, exec_effect h⟩
  | error e =>
    rw [stepWith_error hd] at h; cases h
    exact .inr ⟨(decodeWith_error hd).2, rfl⟩

/-- A fault of an instruction can be raised. -/
theorem possible_of_instrFault {n : Numbering} {f : Fault} (h : InstrFault f) :
    FaultPossible n f := by
  rcases h with rfl | rfl | rfl | rfl | ⟨b, rfl, hb⟩
  · trivial
  · trivial
  · trivial
  · trivial
  · exact hb

end Sys2Proof.Machine
end

