-- ==== Sys2Proof/Tests/Slice0.lean ====
section
/-! SUPPORT. Tests: the well-formedness smoke, decoding by words written out from the spec's encoding, one
or two steps per instruction with the vectors of 95_test_vectors.md, and a witness for the
hypotheses of every statement that has some. The rows named A, M, O, J, K and F are those of 95,
part 2. -/

namespace Sys2Proof.Tests

open Sys2Proof.Machine Sys2Proof.Claims

/-! ### Helpers -/

/-- The reset state with one register changed. -/
def withReg (i : Fin 8) (v : Byte) : State :=
  { State.reset with regs := State.reset.regs.set i.val v }

/-- The reset state with a few cells of memory changed. -/
def withMem (m : Memory) : State := { State.reset with mem := m }

/-- The state of the table in 95, section 2.1. -/
def sample : State :=
  { State.reset with mem := [(15, 5), (200, 77)], regs := #v[15, 0, 0, 9, 0, 0, 200, 0] }

/-- What the step that runs these five bytes, stored at `pc`, leaves of a state. -/
def after (s : State) (w : Window) : Option State :=
  match Sys2Proof.Machine.step (placeWindow w s) with
  | .next t => some t
  | .fault _ => none
  | .refused _ => none

/-- A register of the state after a step, with `pc` and the fault output. -/
def regAfter (i : Fin 8) (s : State) (w : Window) : Option (Byte × Byte × Option Fault) :=
  (after s w).map fun t => (t.regs[i.val], t.pc, t.faultOut)

/-- A memory cell of the state after a step, with `pc` and the fault output. -/
def memAfter (a : Byte) (s : State) (w : Window) : Option (Byte × Byte × Option Fault) :=
  (after s w).map fun t => (memRead a t, t.pc, t.faultOut)

/-- The two outputs of a step. -/
def outputs (s : State) (w : Window) : Option (Option Byte × Option Fault) :=
  (after s w).map fun t => (t.charOut, t.faultOut)

/-- A numbering that is not the default one and that R6 allows: opcodes 0 and 101..113, modes 8, 16, 32,
255. -/
def otherNumbering : Numbering where
  opc o := if o = .crash then 0 else defaultNumbering.opc o + 100
  mode
    | .const => 8
    | .reg => 16
    | .memC => 32
    | .memR => 255
  faultCode f := 0 - defaultNumbering.faultCode f

theorem other_lawful : otherNumbering.Lawful where
  opc_injective a b := by cases a <;> cases b <;> decide
  mode_injective a b := by cases a <;> cases b <;> decide
  faultCode_injective a b := by cases a <;> cases b <;> decide
  opc_crash := rfl
  faultCode_ne_zero f := by cases f <;> decide

/-! ### Well-formedness: an ill-formed term is refused -/

theorem test_wf_print : (Instr.print (.unknown 1 0)).wf defaultNumbering = false := by decide
theorem test_wf_jump : (Instr.jump (.unknown 3 7)).wf defaultNumbering = false := by decide
theorem test_wf_first_operand :
    ([Instr.add, .sub, .mul, .div, .mod, .cmp, .and, .or, .move].all fun mk =>
      (mk (.unknown 0 9) (.reg 1)).wf defaultNumbering == false) = true := by decide
theorem test_wf_second_operand :
    ([Instr.add, .sub, .mul, .div, .mod, .cmp, .and, .or, .move].all fun mk =>
      (mk (.const 9) (.unknown 2 1)).wf defaultNumbering == false) = true := by decide
theorem test_wf_unknown_mode_is_legal :
    (Instr.move (.unknown 4 9) (.reg 255)).wf defaultNumbering = true := by decide

/-! ### Decoding: five bytes written out from R45, R50 and R52, one word for each instruction -/

theorem test_decode_crash : decode ⟨0b00000000, 9, 9, 9, 9⟩ = .ok .crash := by decide
theorem test_decode_print :
    decode ⟨0b00000001, 0b00000001, 0b00000010, 9, 9⟩ = .ok (.print (.reg 2)) := by decide
theorem test_decode_add :
    decode ⟨0b00000010, 0b00000000, 0b00110000, 0b00000001, 0b00000010⟩ =
      .ok (.add (.const 48) (.reg 2)) := by decide
theorem test_decode_sub :
    decode ⟨0b00000011, 0b00000000, 0b00000101, 0b00000010, 0b00011110⟩ =
      .ok (.sub (.const 5) (.memC 30)) := by decide
theorem test_decode_mul :
    decode ⟨0b00000100, 0b00000001, 0b00000000, 0b00000001, 0b00000001⟩ =
      .ok (.mul (.reg 0) (.reg 1)) := by decide
theorem test_decode_div :
    decode ⟨0b00000101, 0b00000011, 0b00000110, 0b00000010, 0b11111111⟩ =
      .ok (.div (.memR 6) (.memC 255)) := by decide
theorem test_decode_mod :
    decode ⟨0b00000110, 0b00000000, 0b00001010, 0b00000001, 0b00000000⟩ =
      .ok (.mod (.const 10) (.reg 0)) := by decide
theorem test_decode_jump :
    decode ⟨0b00000111, 0b00000010, 0b01011010, 200, 200⟩ = .ok (.jump (.memC 90)) := by decide
theorem test_decode_cmp :
    decode ⟨0b00001000, 0b00000010, 0b00111100, 0b00000011, 0b00000010⟩ =
      .ok (.cmp (.memC 60) (.memR 2)) := by decide
theorem test_decode_and :
    decode ⟨0b00001001, 0b00000000, 0b11010011, 0b00000001, 0b00000001⟩ =
      .ok (.and (.const 211) (.reg 1)) := by decide
theorem test_decode_or :
    decode ⟨0b00001010, 0b00000000, 0b00001111, 0b00000010, 0b00010100⟩ =
      .ok (.or (.const 15) (.memC 20)) := by decide
theorem test_decode_if : decode ⟨0b00001011, 9, 9, 9, 9⟩ = .ok .ifOp := by decide
theorem test_decode_call : decode ⟨0b00001100, 0, 40, 0, 0⟩ = .ok .call := by decide
theorem test_decode_move :
    decode ⟨0b00001101, 0b00000000, 0b00000101, 0b00000010, 0b00001111⟩ =
      .ok (.move (.const 5) (.memC 15)) := by decide
/-- The whole mode byte counts (R46): 4 is not CONST. -/
theorem test_decode_mode_is_not_two_bits :
    decode ⟨0b00001101, 0b00000100, 0b00000101, 0b11111111, 0b00001111⟩ =
      .ok (.move (.unknown 4 5) (.unknown 255 15)) := by decide
/-- The first opcode byte that is none, and the last (R54). -/
theorem test_decode_unknown_opcode :
    decode ⟨14, 0, 0, 0, 0⟩ = .error (.unknownOpcode 14) ∧
      decode ⟨255, 1, 9, 7, 7⟩ = .error (.unknownOpcode 255) := by decide
theorem test_encode_clears_unused_bytes :
    encode (.jump (.reg 1)) = ⟨7, 1, 1, 0, 0⟩ ∧ encode .call = ⟨12, 0, 0, 0, 0⟩ := by decide

/-! ### The resolver (95, section 2.1) -/

theorem test_read_reg :
    (match readOperand (.reg 3) sample with | .ok v => v == 9 | .error _ => false) = true ∧
      (match readOperand (.reg 15) sample with
        | .ok _ => false | .error f => f == .badRegister 15) = true := by decide
theorem test_read_memR :
    (match readOperand (.memR 6) sample with | .ok v => v == 77 | .error _ => false) = true ∧
      (match readOperand (.memR 7) sample with
        | .ok _ => false | .error f => f == .badRegister 7) = true := by decide

/-! ### One step -/

/-- A2: the sum wraps. -/
theorem test_add_wraps : regAfter 0 (withReg 0 255) ⟨2, 0, 1, 1, 0⟩ = some (0, 5, none) := by decide
/-- A5: the source register is the destination's pointer. -/
theorem test_add_through_pointer :
    memAfter 40 { withReg 0 40 with mem := [(40, 7)] } ⟨2, 1, 0, 3, 0⟩ = some (47, 5, none) := by
  decide
/-- A8: destination minus source. -/
theorem test_sub_order : memAfter 30 (withMem [(30, 3)]) ⟨3, 0, 5, 2, 30⟩ = some (254, 5, none) := by
  decide
/-- A12: 65025 modulo 256. -/
theorem test_mul_low_byte : regAfter 0 (withReg 0 255) ⟨4, 0, 255, 1, 0⟩ = some (1, 5, none) := by
  decide
/-- A13. -/
theorem test_div_truncates : regAfter 0 (withReg 0 7) ⟨5, 0, 2, 1, 0⟩ = some (3, 5, none) := by decide
/-- A14: nothing is written. -/
theorem test_div_by_zero :
    regAfter 0 (withReg 0 7) ⟨5, 0, 0, 1, 0⟩ = some (7, 5, some .hitZero) := by decide
/-- A19. -/
theorem test_mod : regAfter 0 (withReg 0 42) ⟨6, 0, 10, 1, 0⟩ = some (2, 5, none) := by decide
/-- A20: nothing is written. -/
theorem test_mod_by_zero :
    memAfter 50 (withMem [(50, 42)]) ⟨6, 0, 0, 2, 50⟩ = some (42, 5, some .hitZero) := by decide
/-- A23. -/
theorem test_and : regAfter 1 (withReg 1 204) ⟨9, 0, 170, 1, 1⟩ = some (136, 5, none) := by decide
/-- A25. -/
theorem test_or : regAfter 1 (withReg 1 204) ⟨10, 0, 170, 1, 1⟩ = some (238, 5, none) := by decide
/-- A29: the comparison is unsigned. -/
theorem test_cmp_unsigned :
    regAfter 1 (withReg 1 200) ⟨8, 0, 100, 1, 1⟩ = some (255, 5, none) := by decide
/-- A28: the destination is below the source. -/
theorem test_cmp_less : regAfter 1 (withReg 1 2) ⟨8, 0, 9, 1, 1⟩ = some (1, 5, none) := by decide
/-- M17: the pointer is replaced by its pointee. -/
theorem test_move_pointer_to_pointee :
    regAfter 0 { withReg 0 77 with mem := [(77, 3)] } ⟨13, 3, 0, 1, 0⟩ = some (3, 5, none) := by
  decide
/-- M10: the eighth register is not usable. -/
theorem test_move_bad_register :
    regAfter 7 State.reset ⟨13, 0, 5, 1, 7⟩ = some (0, 5, some (.badRegister 7)) := by decide
/-- O3: operand 2 is ignored. -/
theorem test_print_memory : outputs (withMem [(15, 200)]) ⟨1, 2, 15, 9, 9⟩ = some (some 200, none) := by
  decide
/-- O6: nothing is emitted. -/
theorem test_print_unknown_mode :
    outputs State.reset ⟨1, 9, 0, 0, 0⟩ = some (none, some .unknownAddressingMode) := by decide
/-- J4: a jump through a table. -/
theorem test_jump_through_table :
    memAfter 90 { withReg 2 90 with mem := [(90, 33)] } ⟨7, 3, 2, 0, 0⟩ = some (33, 33, none) := by
  decide
/-- J7: no jump. -/
theorem test_jump_bad_register :
    regAfter 0 State.reset ⟨7, 1, 8, 0, 0⟩ = some (0, 5, some (.badRegister 8)) := by decide
/-- K1. -/
theorem test_crash :
    regAfter 0 { State.reset with pc := 20 } ⟨0, 0, 0, 0, 0⟩ = some (0, 25, some .explicitCrash) := by
  decide
/-- K5, K3: at the top of memory, and with junk operands. -/
theorem test_if :
    regAfter 0 { State.reset with pc := 251 } ⟨11, 0, 0, 0, 0⟩ = some (0, 0, none) ∧
      regAfter 0 State.reset ⟨11, 9, 9, 9, 9⟩ = some (0, 5, none) := by decide
/-- K4: 40 is no target. -/
theorem test_call :
    regAfter 0 { State.reset with pc := 10 } ⟨12, 0, 40, 0, 0⟩ = some (0, 15, none) := by decide
/-- F6: the fetch wraps. -/
theorem test_fetch_wraps :
    regAfter 0 { State.reset with pc := 255 } ⟨13, 0, 7, 1, 0⟩ = some (7, 4, none) := by decide
/-- F7: the start address is reported. -/
theorem test_unknown_opcode :
    outputs { State.reset with pc := 254 } ⟨14, 0, 0, 0, 0⟩ =
      some (none, some (.unknownInstruction 14 254)) := by decide
/-- F11: an instruction that changes its own opcode byte. -/
theorem test_overwrites_itself :
    memAfter 0 State.reset ⟨2, 0, 1, 2, 0⟩ = some (3, 5, none) := by decide
/-- 95, section 2.6: operand 1 before operand 2; reads before writability. -/
theorem test_priority_of_operands :
    outputs State.reset ⟨2, 7, 0, 1, 8⟩ = some (none, some .unknownAddressingMode) ∧
      outputs State.reset ⟨2, 1, 9, 0, 1⟩ = some (none, some (.badRegister 9)) := by decide
/-- 95, section 2.6: writability before the divisor; the mode before the register bound. -/
theorem test_priority_of_the_write :
    outputs State.reset ⟨5, 0, 0, 0, 1⟩ = some (none, some .assignToConstant) ∧
      outputs State.reset ⟨1, 4, 9, 0, 0⟩ = some (none, some .unknownAddressingMode) := by decide
/-- The word of `MOVE CONST 7, REG 0` placed with withFetchWord runs as the next step (F1). -/
theorem test_withFetchWord :
    (match Sys2Proof.Machine.step (State.reset.withFetchWord 40 0x0D00070100) with
      | .next t => some (t.regs[0], t.pc)
      | .fault _ => none
      | .refused _ => none) = some (7, 5) := by decide

/-! ### Witnesses: concrete inputs that meet the hypotheses of each statement, clause by clause -/

/-- `CMP MEM_C 60, MEM_R 2` in `otherNumbering`. -/
def otherWindow : Window := ⟨108, 32, 60, 255, 2⟩

theorem witness_DecodeOfEncodeIsIdentity :
    otherNumbering.Lawful ∧
      (Instr.move (.unknown 0 255) (.memR 255)).wf otherNumbering = true ∧
      Instr.crash.wf otherNumbering = true :=
  ⟨other_lawful, by decide⟩

theorem witness_EncodeOfDecodeKeepsUsedBytes :
    otherNumbering.Lawful ∧
      decodeWith otherNumbering otherWindow = .ok (.cmp (.memC 60) (.memR 2)) ∧
      operand1 (.cmp (.memC 60) (.memR 2)) ≠ none ∧ operand2 (.cmp (.memC 60) (.memR 2)) ≠ none :=
  ⟨other_lawful, by decide⟩

/-- The opcode bytes on both sides of the gaps: 1 and 100, 114 and 255 are none; 0, 101 and 113 are. -/
theorem witness_EveryWindowHasOneDecoding :
    otherNumbering.Lawful ∧
      (∀ b ∈ [(1 : Byte), 100, 114, 255], ∀ o, otherNumbering.opc o ≠ b) ∧
      otherNumbering.opc .crash = 0 ∧ otherNumbering.opc .print = 101 ∧
      otherNumbering.opc .move = 113 :=
  ⟨other_lawful, by intro b hb o; revert b; cases o <;> decide, by decide⟩

theorem witness_UnusedBytesAreIgnored :
    otherNumbering.Lawful ∧
      (∀ o ∈ [Opcode.crash, .ifOp, .call], ∃ w w' : Window, w ≠ w' ∧ w'.op = w.op ∧
        w.op = otherNumbering.opc o) ∧
      (∀ o ∈ [Opcode.print, .jump], ∃ w w' : Window, w ≠ w' ∧ w'.op = w.op ∧
        w.op = otherNumbering.opc o ∧ w'.mode1 = w.mode1 ∧ w'.byte1 = w.byte1) :=
  ⟨other_lawful,
    fun o _ => ⟨⟨otherNumbering.opc o, 0, 0, 0, 0⟩, ⟨otherNumbering.opc o, 9, 255, 9, 9⟩, by simp⟩,
    fun o _ => ⟨⟨otherNumbering.opc o, 16, 3, 0, 0⟩, ⟨otherNumbering.opc o, 16, 3, 9, 255⟩, by simp⟩⟩

theorem witness_ModeByteIsComparedWhole :
    otherNumbering.Lawful ∧ otherNumbering.mode .const = 8 ∧ otherNumbering.mode .reg = 16 ∧
      otherNumbering.mode .memC = 32 ∧ otherNumbering.mode .memR = 255 ∧
      ∀ m ∈ [(0 : Byte), 7, 9, 254], ∀ k, otherNumbering.mode k ≠ m :=
  ⟨other_lawful, by decide, by decide, by decide, by decide,
    by intro m hm k; revert m; cases k <;> decide⟩

theorem witness_FirstStepAfterResetCrashes : otherNumbering.Lawful := other_lawful

/-- An image of 300 bytes covers every address; of one of 15 bytes, 14 is the last address. -/
theorem witness_LoadCopiesThePrefix :
    Memory.wf sample.mem = true ∧ (255 : Byte).toNat < (List.replicate 300 (7 : Byte)).length ∧
      (14 : Byte).toNat < (List.replicate 15 (7 : Byte)).length ∧
      ¬(15 : Byte).toNat < (List.replicate 15 (7 : Byte)).length := by
  refine ⟨by decide, ?_, by decide, by decide⟩
  rw [List.length_replicate]
  decide

theorem witness_BootFetchesTheImageStart :
    ([13, 0, 5, 2, 15] : List Byte).length ≤ (5 : Byte).toNat ∧
      ([] : List Byte).length ≤ (0 : Byte).toNat := by decide

theorem witness_MemWriteChangesOneCell :
    Memory.wf sample.mem = true ∧ (255 : Byte) ≠ 0 ∧ (15 : Byte) ≠ 200 := by decide

theorem witness_CanonicalMemoriesWithEqualCellsAreEqual :
    Memory.wf [(0, 1), (255, 255)] = true ∧
      Memory.wf (Memory.store (Memory.store [] 255 255) 0 1) = true ∧
      ∀ a : Byte, Memory.lookup [(0, 1), (255, 255)] a.toNat =
        Memory.lookup (Memory.store (Memory.store [] 255 255) 0 1) a.toNat :=
  ⟨by decide, by decide, fun _ => rfl⟩

theorem witness_InstructionPlacedAtPcRunsNext :
    otherNumbering.Lawful ∧ (Instr.add (.unknown 0 1) (.reg 6)).wf otherNumbering = true ∧
      Memory.wf sample.mem = true :=
  ⟨other_lawful, by decide⟩

theorem witness_StoresReachTheNextFetch :
    (∃ s : State, Memory.wf s.mem = true ∧ HasValue (.reg 3) s 9 ∧
      decodeWith otherNumbering (fetch s) = .ok (.move (.reg 3) (.memC (s.pc + 5)))) ∧
    (∃ s : State, Memory.wf s.mem = true ∧ HasValue (.reg 3) s 9 ∧
      decodeWith otherNumbering (fetch s) = .ok (.move (.reg 3) (.memC s.pc))) := by
  refine ⟨⟨placeWindow ⟨113, 16, 3, 32, 3⟩ { sample with pc := 254 }, by decide, ⟨by decide, by decide⟩,
    by decide⟩, ⟨placeWindow ⟨113, 16, 3, 32, 254⟩ { sample with pc := 254 }, by decide,
    ⟨by decide, by decide⟩, by decide⟩⟩

/-- Each branch of the pseudocode, with the index on both sides of the bound. -/
theorem witness_ReadOperandFollowsThePseudocode :
    otherNumbering.Lawful ∧ (8 : Byte) = otherNumbering.mode .const ∧
      (16 : Byte) = otherNumbering.mode .reg ∧ (32 : Byte) = otherNumbering.mode .memC ∧
      (255 : Byte) = otherNumbering.mode .memR ∧ (∀ k, (0 : Byte) ≠ otherNumbering.mode k) ∧
      (6 : Byte).toNat < 7 ∧ ¬(7 : Byte).toNat < 7 :=
  ⟨other_lawful, by decide, by decide, by decide, by decide, by intro k; cases k <;> decide, by decide,
    by decide⟩

theorem witness_WriteOperandFollowsThePseudocode :
    otherNumbering.Lawful ∧ (8 : Byte) = otherNumbering.mode .const ∧
      (16 : Byte) = otherNumbering.mode .reg ∧ (32 : Byte) = otherNumbering.mode .memC ∧
      (255 : Byte) = otherNumbering.mode .memR ∧ (∀ k, (254 : Byte) ≠ otherNumbering.mode k) ∧
      (0 : Byte).toNat < 7 ∧ ¬(255 : Byte).toNat < 7 :=
  ⟨other_lawful, by decide, by decide, by decide, by decide, by intro k; cases k <;> decide, by decide,
    by decide⟩

/-- One assignable operand of each mode. -/
theorem witness_WrittenOperandReadsBack :
    Memory.wf sample.mem = true ∧
      ∀ o ∈ [Operand.reg 6, .memC 255, .memR 0], ∃ t, writeOperand o 6 sample = .ok t := by
  refine ⟨by decide, fun o ho => ?_⟩
  simp only [List.mem_cons, List.not_mem_nil, or_false] at ho
  obtain rfl | rfl | rfl := ho <;> exact ⟨_, rfl⟩

/-- The hypotheses of the clauses of a binary instruction's statement are met: a window with its opcode
byte; operands it completes on, with each readable mode as the source and each assignable mode as
the destination; operands it faults on, one for each disjunct, with the index on both sides of the
bound. -/
def BinaryHypothesesMet (op : Opcode) (Allowed : Byte → Prop) : Prop :=
  (otherNumbering.Lawful ∧ ∃ w : Window, w.op = otherNumbering.opc op) ∧
  (HasValue (.const 255) sample 255 ∧ HasValue (.reg 6) sample 200 ∧ writeFault (.reg 6) = none ∧
    Allowed 255) ∧
  (HasValue (.reg 6) sample 200 ∧ HasValue (.memC 255) sample 0 ∧ writeFault (.memC 255) = none ∧
    Allowed 200) ∧
  (HasValue (.reg 3) sample 9 ∧ HasValue (.memR 0) sample 5 ∧ writeFault (.memR 0) = none ∧
    Allowed 9) ∧
  (HasValue (.memR 0) sample 5 ∧ HasValue (.memC 15) sample 5 ∧ writeFault (.memC 15) = none ∧
    Allowed 5) ∧
  (readFault (.reg 7) ≠ none ∧ readFault (.unknown 4 0) ≠ none ∧ readFault (.memR 255) ≠ none ∧
    writeFault (.const 0) ≠ none ∧ readFault (.reg 6) = none ∧ writeFault (.memR 6) = none)

theorem binary_hypotheses_met (op : Opcode) (Allowed : Byte → Prop)
    (h : ∀ v ∈ [(255 : Byte), 200, 9, 5], Allowed v) : BinaryHypothesesMet op Allowed :=
  ⟨⟨other_lawful, ⟨otherNumbering.opc op, 16, 6, 255, 7⟩, rfl⟩,
    ⟨rfl, ⟨by decide, by decide⟩, by decide, h _ (by decide)⟩,
    ⟨⟨by decide, by decide⟩, rfl, by decide, h _ (by decide)⟩,
    ⟨⟨by decide, by decide⟩, ⟨by decide, by decide⟩, by decide, h _ (by decide)⟩,
    ⟨⟨by decide, by decide⟩, rfl, by decide, h _ (by decide)⟩, by decide⟩

theorem witness_AddWritesTheWrappedSum : BinaryHypothesesMet .add (fun _ => True) :=
  binary_hypotheses_met _ _ fun _ _ => trivial
theorem witness_SubWritesTheWrappedDifference : BinaryHypothesesMet .sub (fun _ => True) :=
  binary_hypotheses_met _ _ fun _ _ => trivial
theorem witness_MulWritesTheLowByteOfTheProduct : BinaryHypothesesMet .mul (fun _ => True) :=
  binary_hypotheses_met _ _ fun _ _ => trivial
theorem witness_AndWritesTheBitwiseAnd : BinaryHypothesesMet .and (fun _ => True) :=
  binary_hypotheses_met _ _ fun _ _ => trivial
theorem witness_OrWritesTheBitwiseOr : BinaryHypothesesMet .or (fun _ => True) :=
  binary_hypotheses_met _ _ fun _ _ => trivial

/-- With values in each of the three orders, at the ends of the range. -/
theorem witness_CmpWritesTheUnsignedOrder :
    BinaryHypothesesMet .cmp (fun _ => True) ∧ (254 : Byte).toNat < (255 : Byte).toNat ∧
      (0 : Byte).toNat < (1 : Byte).toNat ∧ (0 : Byte) = 0 :=
  ⟨binary_hypotheses_met _ _ fun _ _ => trivial, by decide, by decide, rfl⟩

/-- A zero source with everything else in order. -/
theorem zero_source_met :
    HasValue (.reg 1) sample 0 ∧ readFault (.reg 6) = none ∧ writeFault (.reg 6) = none ∧
      HasValue (.const 0) sample 0 ∧ readFault (.memR 0) = none ∧ writeFault (.memR 0) = none :=
  ⟨⟨by decide, by decide⟩, by decide, by decide, rfl, by decide, by decide⟩

theorem witness_DivWritesTheQuotient :
    BinaryHypothesesMet .div (fun s => s ≠ 0) ∧ HasValue (.reg 1) sample 0 ∧
      readFault (.memR 0) = none ∧ writeFault (.memR 0) = none :=
  ⟨binary_hypotheses_met _ _ (by decide), zero_source_met.1, zero_source_met.2.2.2.2⟩

theorem witness_ModWritesTheRemainder :
    BinaryHypothesesMet .mod (fun s => s ≠ 0) ∧ HasValue (.const 0) sample 0 ∧
      readFault (.memR 0) = none ∧ writeFault (.memR 0) = none :=
  ⟨binary_hypotheses_met _ _ (by decide), zero_source_met.2.2.2⟩

theorem witness_MoveCopiesSourceToDestination :
    (otherNumbering.Lawful ∧ otherNumbering.opc .move = 113) ∧
      (HasValue (.memR 6) sample 77 ∧ writeFault (.reg 6) = none) ∧
      readFault (.memR 7) = some (.badRegister 7) ∧ readFault (.unknown 4 9) ≠ none ∧
      (HasValue (.const 255) sample 255 ∧ writeFault (.const 0) = some .assignToConstant) ∧
      writeFault (.reg 7) = some (.badRegister 7) :=
  ⟨⟨other_lawful, by decide⟩, ⟨⟨by decide, by decide⟩, by decide⟩, by decide, by decide, ⟨rfl, by decide⟩, by decide⟩

theorem witness_StoreThroughPointerEqualsDirectStore :
    Memory.wf sample.mem = true ∧ (0 : Byte).toNat < 7 ∧ (6 : Byte).toNat < 7 := by decide

theorem witness_PrintEmitsOperandOne :
    (otherNumbering.Lawful ∧ otherNumbering.opc .print = 101) ∧ HasValue (.const 255) sample 255 ∧
      HasValue (.memR 0) sample 5 ∧ readFault (.reg 7) = some (.badRegister 7) :=
  ⟨⟨other_lawful, by decide⟩, rfl, ⟨by decide, by decide⟩, by decide⟩

theorem witness_JumpSetsPcToOperandOne :
    (otherNumbering.Lawful ∧ otherNumbering.opc .jump = 107) ∧ HasValue (.const 255) sample 255 ∧
      HasValue (.memC 15) sample 5 ∧ readFault (.unknown 5 0) = some .unknownAddressingMode :=
  ⟨⟨other_lawful, by decide⟩, rfl, rfl, by decide⟩

/-- J9, in `otherNumbering`. -/
theorem witness_JumpToSelfLoopsForever :
    ∃ s : State, decodeWith otherNumbering (fetch s) = .ok (.jump (.const s.pc)) :=
  ⟨placeWindow ⟨107, 8, 20, 0, 0⟩ { State.reset with pc := 20 }, by decide⟩

theorem witness_CrashReportsExplicitCrash :
    otherNumbering.Lawful ∧ memRead State.reset.pc State.reset = 0 := ⟨other_lawful, by decide⟩

theorem witness_IfOnlyAdvancesPc :
    otherNumbering.Lawful ∧ memRead (withMem [(0, 111)]).pc (withMem [(0, 111)]) = otherNumbering.opc .ifOp :=
  ⟨other_lawful, by decide⟩

theorem witness_CallOnlyAdvancesPc :
    otherNumbering.Lawful ∧ memRead (withMem [(0, 112)]).pc (withMem [(0, 112)]) = otherNumbering.opc .call :=
  ⟨other_lawful, by decide⟩

/-- Both a completing and a faulting store, and each of the four ways operand 2 can resolve. -/
theorem witness_StoringInstructionsFrame :
    (∃ t, exec (.add (.const 1) (.memR 0)) sample = .next t ∧ t.faultOut = none) ∧
      resolve (.memR 0) sample = .ok (.cell 15) ∧
      (∃ t, exec (.move (.const 1) (.reg 6)) sample = .next t ∧ t.faultOut = none) ∧
      resolve (.reg 6) sample = .ok (.register 6) ∧
      (∃ t, exec (.div (.const 0) (.const 1)) sample = .next t ∧ t.faultOut = some .assignToConstant) ∧
      resolve (.const 1) sample = .ok (.value 1) ∧
      (∃ t, exec (.cmp (.const 0) (.reg 7)) sample = .next t ∧ t.faultOut = some (.badRegister 7)) ∧
      resolve (.reg 7) sample = .error (.badRegister 7) :=
  ⟨⟨_, rfl, rfl⟩, rfl, ⟨_, rfl, rfl⟩, rfl, ⟨_, rfl, rfl⟩, rfl, ⟨_, rfl, rfl⟩, rfl⟩

theorem witness_NonStoringInstructionsFrame :
    (∃ t, exec (.print (.const 255)) sample = .next t ∧ t.charOut = some 255) ∧
      (∃ t, exec (.jump (.memC 15)) sample = .next t ∧ t.pc = 5) ∧
      (∃ t, exec .crash sample = .next t ∧ t.faultOut = some .explicitCrash) ∧
      (∃ t, exec .ifOp sample = .next t ∧ t.faultOut = none) ∧
      (∃ t, exec .call sample = .next t ∧ t.faultOut = none) :=
  ⟨⟨_, rfl, rfl⟩, ⟨_, rfl, rfl⟩, ⟨_, rfl, rfl⟩, ⟨_, rfl, rfl⟩, ⟨_, rfl, rfl⟩⟩

theorem witness_NoInstructionReadsPc :
    (∃ t, exec (.jump (.reg 6)) sample = .next t ∧ t.pc = 200) ∧
      (∃ t, exec (.sub (.reg 3) (.reg 0)) sample = .next t ∧ t.pc = 0) :=
  ⟨⟨_, rfl, rfl⟩, ⟨_, rfl, rfl⟩⟩

theorem witness_StepRunsTheDecodedInstruction :
    decode (fetch State.reset) = .ok .crash ∧
      decodeWith otherNumbering (fetch (placeWindow otherWindow sample)) =
        .ok (.cmp (.memC 60) (.memR 2)) ∧
      otherNumbering.Lawful ∧ (Instr.cmp (.memC 60) (.memR 2)).wf otherNumbering = true ∧
      fetch (placeWindow otherWindow sample) = encodeWith otherNumbering (.cmp (.memC 60) (.memR 2)) :=
  ⟨by decide, by decide, other_lawful, by decide, by decide⟩

/-- 251 is the last address whose fetch stays below the top of memory. -/
theorem witness_FetchReadsFiveCellsFromPc :
    FetchBelowTop { State.reset with pc := 251 } ∧ ¬FetchBelowTop { State.reset with pc := 252 } := by
  unfold FetchBelowTop
  decide

/-- The bytes 14 and 255 are no opcodes by default. -/
theorem witness_UnknownOpcodeReportsByteAndAddress :
    ∀ b ∈ [(14 : Byte), 255], ∀ o, defaultNumbering.opc o ≠ memRead (withMem [(0, b)]).pc (withMem [(0, b)]) := by
  intro b hb o
  simp only [List.mem_cons, List.not_mem_nil, or_false] at hb
  obtain rfl | rfl := hb <;> cases o <;> decide

/-- A state that runs one of the four kinds of step: a jump, a store to memory, a store to a register, a
print, a fault by BadRegister, by an unknown opcode, by a zero divisor, by a constant destination. -/
def running (w : Window) : State := placeWindow w { sample with pc := 20 }

theorem witness_StepAdvancesPcByFive :
    (∃ t, stepWith defaultNumbering (running ⟨7, 2, 15, 0, 0⟩) = .next t ∧ t.faultOut = none) ∧
      decodeWith defaultNumbering (fetch (running ⟨7, 2, 15, 0, 0⟩)) = .ok (.jump (.memC 15)) ∧
      (∃ t, stepWith defaultNumbering (running ⟨7, 1, 7, 0, 0⟩) = .next t ∧ t.faultOut ≠ none) ∧
      (∃ t, stepWith defaultNumbering (running ⟨2, 0, 1, 1, 6⟩) = .next t) ∧
      decodeWith defaultNumbering (fetch (running ⟨2, 0, 1, 1, 6⟩)) = .ok (.add (.const 1) (.reg 6)) ∧
      (∃ t, stepWith defaultNumbering (running ⟨14, 0, 0, 0, 0⟩) = .next t ∧
        t.faultOut = some (.unknownInstruction 14 20)) :=
  ⟨⟨_, rfl, by decide⟩, by decide, ⟨_, rfl, by decide⟩, ⟨_, rfl⟩, by decide, ⟨_, rfl, by decide⟩⟩

theorem witness_FaultingStepChangesOnlyPc :
    ∃ t, stepWith defaultNumbering (running ⟨13, 0, 5, 1, 7⟩) = .next t ∧
      t.faultOut = some (.badRegister 7) :=
  ⟨_, rfl, by decide⟩

/-- A step that changes a cell, and one that changes a register. -/
theorem witness_StepWritesOnlyWhereOperandTwoPoints :
    (∃ t, stepWith defaultNumbering (running ⟨13, 0, 6, 3, 0⟩) = .next t ∧
      memRead 15 t ≠ memRead 15 (running ⟨13, 0, 6, 3, 0⟩)) ∧
    (∃ t, stepWith defaultNumbering (running ⟨13, 0, 6, 1, 6⟩) = .next t ∧
      t.regs[6] ≠ (running ⟨13, 0, 6, 1, 6⟩).regs[6]) :=
  ⟨⟨_, rfl, by decide⟩, ⟨_, rfl, by decide⟩⟩

theorem witness_OnlyPrintEmits :
    (∃ t, stepWith defaultNumbering (running ⟨1, 3, 6, 9, 9⟩) = .next t ∧ t.charOut = some 77) ∧
      (∃ t, stepWith defaultNumbering (running ⟨1, 1, 7, 0, 0⟩) = .next t ∧ t.charOut = none) :=
  ⟨⟨_, rfl, by decide⟩, ⟨_, rfl, by decide⟩⟩

theorem witness_HistoriesRecordTheOutputs :
    (∃ t, stepWith defaultNumbering (running ⟨1, 0, 33, 0, 0⟩) = .next t ∧ t.emitted = [33]) ∧
      (∃ t, stepWith defaultNumbering (running ⟨5, 0, 0, 1, 0⟩) = .next t ∧ t.faults = [.hitZero]) :=
  ⟨⟨_, rfl, by decide⟩, ⟨_, rfl, by decide⟩⟩

theorem witness_ReportedFaultFollowsThePriorityList :
    otherNumbering.Lawful ∧
      (∃ t, stepWith otherNumbering (running ⟨105, 8, 0, 16, 6⟩) = .next t ∧
        t.faultOut = some .hitZero) ∧
      (∃ t, stepWith otherNumbering (running ⟨105, 8, 0, 8, 6⟩) = .next t ∧
        t.faultOut = some .assignToConstant) ∧
      (∃ t, stepWith otherNumbering (running ⟨113, 8, 1, 255, 6⟩) = .next t ∧ t.faultOut = none) :=
  ⟨other_lawful, ⟨_, rfl, by decide⟩, ⟨_, rfl, by decide⟩, ⟨_, rfl, by decide⟩⟩

theorem witness_FaultsComeFromTheirCauses :
    (∃ t, stepWith defaultNumbering (running ⟨6, 0, 0, 1, 6⟩) = .next t ∧ t.faultOut = some .hitZero) ∧
      (∃ t, stepWith defaultNumbering (running ⟨10, 0, 1, 0, 2⟩) = .next t ∧
        t.faultOut = some .assignToConstant) ∧
      (∃ t, stepWith defaultNumbering (running ⟨0, 9, 9, 9, 9⟩) = .next t ∧
        t.faultOut = some .explicitCrash) ∧
      (∃ t, stepWith defaultNumbering (running ⟨7, 3, 7, 0, 0⟩) = .next t ∧
        t.faultOut = some (.badRegister 7)) ∧
      (∃ t, stepWith defaultNumbering (running ⟨13, 0, 1, 4, 9⟩) = .next t ∧
        t.faultOut = some .unknownAddressingMode) ∧
      (∃ t, stepWith defaultNumbering (running ⟨14, 0, 0, 0, 0⟩) = .next t ∧
        t.faultOut = some (.unknownInstruction 14 20)) :=
  ⟨⟨_, rfl, by decide⟩, ⟨_, rfl, by decide⟩, ⟨_, rfl, by decide⟩, ⟨_, rfl, by decide⟩,
    ⟨_, rfl, by decide⟩, ⟨_, rfl, by decide⟩⟩

theorem witness_StepAfterFaultGoesOn :
    ∃ t, stepWith defaultNumbering (running ⟨255, 1, 9, 7, 7⟩) = .next t ∧
      t.faultOut = some (.unknownInstruction 255 20) :=
  ⟨_, rfl, by decide⟩

theorem witness_FaultPortShowsTheFault :
    otherNumbering.Lawful ∧ State.reset.faultOut = none ∧
      (∀ f ∈ [Fault.badRegister 7, .unknownInstruction 14 254, .hitZero],
        (raise f State.reset).faultOut = some f) ∧
      faultName .hitZero ≠ .badRegister ∧ faultName .hitZero ≠ .unknownInstruction :=
  ⟨other_lawful, rfl, fun _ _ => rfl, by decide, by decide⟩

/-- A state with a fault on its port, and one with a byte, both with the invariant. -/
theorem witness_StepKeepsTheInvariant :
    (Inv defaultNumbering { State.reset with faultOut := some (.badRegister 7), faults := [.badRegister 7] } ∧
      ∃ t, Sys2Proof.Machine.step
        { State.reset with faultOut := some (.badRegister 7), faults := [.badRegister 7] } = .next t) ∧
    (Inv otherNumbering { withMem [(0, 255), (255, 1)] with charOut := some 1, emitted := [0, 1] } ∧
      ∃ t, stepWith otherNumbering
        { withMem [(0, 255), (255, 1)] with charOut := some 1, emitted := [0, 1] } = .next t) := by
  refine ⟨⟨⟨by decide, by decide, by simp, by simp, by simp, by simp [FaultPossible]⟩, ⟨_, rfl⟩⟩,
    ⟨⟨by decide, by decide, by simp [withMem], by simp, by simp [withMem], by simp [withMem]⟩, ⟨_, rfl⟩⟩⟩

/-- P1 of 95, part 3: after reset, load and one step, `M[15] = 5`. -/
theorem witness_ReachableStatesSatisfyTheInvariant :
    ∃ s, Reachable defaultNumbering s ∧ memRead 15 s = 5 :=
  ⟨_, ⟨[.reset, .load [13, 0, 5, 2, 15], .step], rfl⟩, by decide⟩

theorem witness_EighthRegisterIsInert :
    ∃ t, stepWith otherNumbering (running ⟨113, 255, 6, 16, 6⟩) = .next t ∧ t.regs[6] = 77 :=
  ⟨_, rfl, by decide⟩

theorem witness_OutputsAndHistoriesAreNeverRead :
    ∃ s₁ s₂ t₁ : State, s₁ ≠ s₂ ∧ s₁.mem = s₂.mem ∧ s₁.regs = s₂.regs ∧ s₁.pc = s₂.pc ∧
      stepWith defaultNumbering s₁ = .next t₁ :=
  ⟨sample, raise .hitZero (emit 9 sample), _, by decide, rfl, rfl, rfl, rfl⟩

/-- A run with a reset that is without faults; one without a reset whose record is empty at both ends; and
a run whose first part faults, which is no safe run although a reset empties its record. -/
theorem witness_PartsOfASafeRunAreSafe :
    SafeRun defaultNumbering ([.load [11, 0, 0, 0, 0, 12], .step] ++ [.reset, .load [11], .step]) sample ∧
      (FaultFree State.reset ∧
        (∀ m ∈ [HostMove.load [11, 0, 0, 0, 0, 12], .step, .step], m ≠ .reset) ∧
        ∃ t, hostRun defaultNumbering ([.load [11, 0, 0, 0, 0, 12], .step] ++ [.step]) State.reset = .next t ∧
          FaultFree t) ∧
      ¬SafeRun defaultNumbering [.step, .reset] State.reset := by
  refine ⟨⟨_, rfl, nofun, _, rfl, fun _ => rfl, _, rfl, nofun, _, rfl, nofun, _, rfl, fun _ => rfl, trivial⟩,
    ⟨rfl, by decide, _, rfl, rfl⟩, ?_⟩
  rintro ⟨t, ht, hf, -⟩
  cases ht
  exact absurd (hf rfl) (by decide)

theorem witness_StepRefinesTheReferenceMachine :
    otherNumbering.Lawful ∧ Memory.wf (running otherWindow).mem = true ∧
      Memory.wf sample.mem = true :=
  ⟨other_lawful, by decide, by decide⟩

end Sys2Proof.Tests
end

section
/-! Proofs of the family `20_memory.md`: the one data store of the machine and its frame. -/

namespace Sys2Proof.Machine

/-- Settles O12: the written cell by the read-back law, which needs the canonical form; the other cells by
the store's frame, which holds in any memory; the other fields by the write's field lemmas (R33, R34). -/
theorem memWriteChangesOneCell : Obligations.MemWriteChangesOneCell := by
  unfold Obligations.MemWriteChangesOneCell
  intro a v s hwf
  exact ⟨memRead_memWrite_same hwf a v, fun b hne => memRead_memWrite_ne hne v s,
    memWrite_regs a v s, memWrite_pc a v s, memWrite_charOut a v s, memWrite_faultOut a v s,
    memWrite_emitted a v s, memWrite_faults a v s⟩

end Sys2Proof.Machine
end

section
/-! Proofs of the family `30_encoding.md`: what the decoder refuses, and what a step does then. -/

namespace Sys2Proof

/-- The converse of `decodeWith_error`: a window whose opcode byte is outside `OPC` is refused by name,
whatever its other four bytes are (R54). -/
theorem decodeWith_unknownOpcode {n : Numbering} {w : Window} (h : ∀ o, n.opc o ≠ w.op) :
    decodeWith n w = .error (.unknownOpcode w.op) := by
  simp [decodeWith, opcodeOf_none.mpr h]

end Sys2Proof

namespace Sys2Proof.Machine

@[simp] theorem fetch_op (s : State) : (fetch s).op = memRead s.pc s := rfl

/-- The advanced state in which the step runs is the one the statements speak of. -/
theorem advance_eq_begun (s : State) : advance s = Claims.begun s := rfl

/-- The model's report of a fault is the one the statements speak of. -/
theorem raise_eq_reported (f : Fault) (s : State) : raise f s = Claims.reported f s := rfl

/-- Settles O41: the decoder refuses the fetched window, so the step is the fall-through arm, which reports
the byte and the start address in the advanced state (R54). -/
theorem unknownOpcodeReportsByteAndAddress : Obligations.UnknownOpcodeReportsByteAndAddress := by
  unfold Obligations.UnknownOpcodeReportsByteAndAddress
  intro n s hop
  have hrefused : decodeWith n (fetch s) = .error (.unknownOpcode (memRead s.pc s)) :=
    decodeWith_unknownOpcode hop
  rw [stepWith_error hrefused, fetch_op, raise_eq_reported, advance_eq_begun]

end Sys2Proof.Machine
end

section
/-! Proofs of the family `40_addressing.md`: the resolver, for every mode byte and operand byte. -/

namespace Sys2Proof

theorem mode_eq_mode_iff {n : Numbering} (hn : n.Lawful) {j k : Mode} :
    n.mode j = n.mode k ↔ j = k :=
  ⟨hn.mode_injective j k, congrArg n.mode⟩

/-- The mode byte decides the kind of operand in the order of the pseudocode, by comparing whole bytes
(R49, R66). -/
theorem decodeOperand_eq_ite {n : Numbering} (hn : n.Lawful) (m b : Byte) :
    decodeOperand n m b =
      if m = n.mode .const then .const b
      else if m = n.mode .reg then .reg b
      else if m = n.mode .memC then .memC b
      else if m = n.mode .memR then .memR b
      else .unknown m b := by
  cases hm : modeOf n m with
  | none =>
    have hne (k : Mode) : m ≠ n.mode k := (modeOf_none.mp hm k).symm
    simp [decodeOperand, hm, hne]
  | some k =>
    obtain rfl : n.mode k = m := mode_of_modeOf hm
    cases k <;> simp [decodeOperand, hm, mode_eq_mode_iff hn]

end Sys2Proof

namespace Sys2Proof.Machine

/-! A read of each mode (R67 to R70). -/

theorem readOperand_const (b : Byte) (s : State) : readOperand (.const b) s = .ok b :=
  readOperand_of_resolve (resolve_const b s)

theorem readOperand_reg (b : Byte) (s : State) :
    readOperand (.reg b) s =
      if h : b.toNat < 7 then .ok s.regs[b.toNat] else .error (.badRegister b) := by
  split
  · next h => exact readOperand_of_resolve (resolve_reg h s)
  · next h => exact readOperand_of_resolve_error (resolve_reg_bad (Nat.not_lt.mp h) s)

theorem readOperand_memC (b : Byte) (s : State) : readOperand (.memC b) s = .ok (memRead b s) :=
  readOperand_of_resolve (resolve_memC b s)

theorem readOperand_memR (b : Byte) (s : State) :
    readOperand (.memR b) s =
      if h : b.toNat < 7 then .ok (memRead s.regs[b.toNat] s) else .error (.badRegister b) := by
  split
  · next h => exact readOperand_of_resolve (resolve_memR h s)
  · next h => exact readOperand_of_resolve_error (resolve_memR_bad (Nat.not_lt.mp h) s)

theorem readOperand_unknown (m b : Byte) (s : State) :
    readOperand (.unknown m b) s = .error .unknownAddressingMode :=
  readOperand_of_resolve_error (resolve_unknown m b s)

/-! A write of each mode (R71 to R75). -/

theorem writeOperand_const (b v : Byte) (s : State) :
    writeOperand (.const b) v s = .error .assignToConstant :=
  writeOperand_of_resolve (resolve_const b s) v

theorem writeOperand_reg (b v : Byte) (s : State) :
    writeOperand (.reg b) v s =
      if h : b.toNat < 7 then .ok { s with regs := s.regs.set b.toNat v }
      else .error (.badRegister b) := by
  split
  · next h => exact writeOperand_of_resolve (resolve_reg h s) v
  · next h => exact writeOperand_of_resolve_error (resolve_reg_bad (Nat.not_lt.mp h) s) v

theorem writeOperand_memC (b v : Byte) (s : State) :
    writeOperand (.memC b) v s = .ok (memWrite b v s) :=
  writeOperand_of_resolve (resolve_memC b s) v

theorem writeOperand_memR (b v : Byte) (s : State) :
    writeOperand (.memR b) v s =
      if h : b.toNat < 7 then .ok (memWrite s.regs[b.toNat] v s) else .error (.badRegister b) := by
  split
  · next h => exact writeOperand_of_resolve (resolve_memR h s) v
  · next h => exact writeOperand_of_resolve_error (resolve_memR_bad (Nat.not_lt.mp h) s) v

theorem writeOperand_unknown (m b v : Byte) (s : State) :
    writeOperand (.unknown m b) v s = .error .unknownAddressingMode :=
  writeOperand_of_resolve_error (resolve_unknown m b s) v

/-- Settles O16: the mode byte chooses the operand in the pseudocode's order, and each branch is the read of
that mode (R66 to R70). -/
theorem readOperandFollowsThePseudocode : Obligations.ReadOperandFollowsThePseudocode := by
  unfold Obligations.ReadOperandFollowsThePseudocode
  intro n m b s hn
  rw [decodeOperand_eq_ite hn]
  split
  · exact readOperand_const b s
  split
  · exact readOperand_reg b s
  split
  · exact readOperand_memC b s
  split
  · exact readOperand_memR b s
  · exact readOperand_unknown m b s

/-- Settles O17: the same choice by the mode byte, and each branch is the write of that mode (R71). -/
theorem writeOperandFollowsThePseudocode : Obligations.WriteOperandFollowsThePseudocode := by
  unfold Obligations.WriteOperandFollowsThePseudocode
  intro n m b v s hn
  rw [decodeOperand_eq_ite hn]
  split
  · exact writeOperand_const b v s
  split
  · exact writeOperand_reg b v s
  split
  · exact writeOperand_memC b v s
  split
  · exact writeOperand_memR b v s
  · exact writeOperand_unknown m b v s

end Sys2Proof.Machine
end

section
/-! Proofs of the family `41_step_and_dispatch.md`: where a step leaves `pc`, and what a fault says of it. -/

namespace Sys2Proof.Machine

/-- The model's read is the one the statements speak of: it answers `v` exactly when the operand has that
value (R67 to R70). -/
theorem readOperand_eq_ok_iff_hasValue {o : Operand} {s : State} {v : Byte} :
    readOperand o s = .ok v ↔ Claims.HasValue o s v := by
  cases o with
  | const b => simp [readOperand_const, Claims.HasValue, eq_comm]
  | memC b => simp [readOperand_memC, Claims.HasValue, eq_comm]
  | unknown m b => simp [readOperand_unknown, Claims.HasValue]
  | reg b =>
    rw [readOperand_reg]
    split
    · next h => simp [Claims.HasValue, h, eq_comm]
    · next h => simp [Claims.HasValue, h]
  | memR b =>
    rw [readOperand_memR]
    split
    · next h => simp [Claims.HasValue, h, eq_comm]
    · next h => simp [Claims.HasValue, h]

/-- No operand names `pc` or an output, so the advance changes no operand's value (R15). -/
@[simp] theorem readOperand_advance (o : Operand) (s : State) :
    readOperand o (advance s) = readOperand o s :=
  readOperand_congr o (advance_mem s) fun i => readReg_advance i s

/-- The advance is the addition modulo 256 of R82. -/
theorem advance_pc_toNat (s : State) : (advance s).pc.toNat = (s.pc.toNat + 5) % 256 :=
  BitVec.toNat_add s.pc 5

theorem not_instrFault_unknownInstruction (op a : Byte) :
    ¬ InstrFault (.unknownInstruction op a) := by
  simp [InstrFault]

/-! What each effect of an instruction does to `pc` and to an idle fault output. -/

/-- Only a jump that completes overwrites `pc`; every other effect leaves it alone (R16, R115). -/
theorem Effect.pc_eq {i : Instr} {s t : State} (he : Effect i s t) (hidle : s.faultOut = none)
    (h : (∀ src, i ≠ .jump src) ∨ t.faultOut ≠ none) : t.pc = s.pc := by
  cases he with
  | nothing _ => rfl
  | raised f _ => rfl
  | emitted src v _ _ => rfl
  | wroteReg dest r v _ _ => rfl
  | wroteCell dest a v _ _ => rfl
  | jumped src v hi _ =>
    rcases h with hno | hfault
    · exact absurd hi (hno src)
    · exact absurd hidle hfault

/-- A jump that raises no fault ends at the byte it read (R110). -/
theorem Effect.jump_reads_pc {src : Operand} {s t : State} (he : Effect (.jump src) s t)
    (hok : t.faultOut = none) : readOperand src s = .ok t.pc := by
  cases he with
  | jumped src' v hi hv => cases hi; exact hv
  | raised f _ => cases hok
  | nothing hi => rcases hi with hi | hi <;> cases hi
  | emitted src' v hi _ => cases hi
  | wroteReg dest r v hi _ => cases hi
  | wroteCell dest a v hi _ => cases hi

/-- A fault on an output that was idle is one the instruction raised. -/
theorem Effect.instrFault {i : Instr} {s t : State} {f : Fault} (he : Effect i s t)
    (hidle : s.faultOut = none) (hf : t.faultOut = some f) : InstrFault f := by
  cases he with
  | raised g hg => cases hf; exact hg
  | nothing _ => simp [hidle] at hf
  | emitted src v _ _ => simp [hidle] at hf
  | jumped src v _ _ => simp [hidle] at hf
  | wroteReg dest r v _ _ => simp [hidle] at hf
  | wroteCell dest a v _ _ => simp [hidle] at hf

/-! The same of a whole step, whose effect happens in the advanced state. -/

theorem stepWith_effect {n : Numbering} {s t : State} {i : Instr}
    (hd : decodeWith n (fetch s) = .ok i) (h : stepWith n s = .next t) : Effect i (advance s) t :=
  exec_effect (stepWith_ok hd ▸ h)

/-- Unless a jump completes, a step leaves `pc` where the advance put it (R82, R115). -/
theorem stepWith_pc_of_no_jump {n : Numbering} {s t : State} (h : stepWith n s = .next t)
    (hj : (∀ src, decodeWith n (fetch s) ≠ .ok (.jump src)) ∨ t.faultOut ≠ none) :
    t.pc = (advance s).pc := by
  rcases stepWith_cases h with ⟨i, hd, he⟩ | ⟨-, rfl⟩
  · refine he.pc_eq (advance_faultOut s) (hj.imp_left fun hno src hi => hno src ?_)
    rw [hd, hi]
  · exact raise_pc _ _

/-- A jump without a fault takes its target from the start state (R110). -/
theorem stepWith_jump_hasValue {n : Numbering} {s t : State} {src : Operand}
    (h : stepWith n s = .next t) (hd : decodeWith n (fetch s) = .ok (.jump src))
    (hok : t.faultOut = none) : Claims.HasValue src s t.pc := by
  rw [← readOperand_eq_ok_iff_hasValue, ← readOperand_advance]
  exact (stepWith_effect hd h).jump_reads_pc hok

/-- An address is reported by the dispatcher only, and it is the start address (R85). -/
theorem stepWith_reported_address {n : Numbering} {s t : State} {op a : Byte}
    (h : stepWith n s = .next t) (hf : t.faultOut = some (.unknownInstruction op a)) :
    a = s.pc := by
  rcases stepWith_cases h with ⟨i, -, he⟩ | ⟨-, rfl⟩
  · exact absurd (he.instrFault (advance_faultOut s) hf) (not_instrFault_unknownInstruction op a)
  · rw [raise_faultOut] at hf
    cases hf
    rfl

/-- Settles O42: the dispatch starts from the advanced state, and of the effects it can have there only a
completed jump overwrites `pc` (R82, R115). -/
theorem stepAdvancesPcByFive : Obligations.StepAdvancesPcByFive := by
  unfold Obligations.StepAdvancesPcByFive
  intro n s t h
  refine ⟨fun hj => ?_, fun src => stepWith_jump_hasValue h, fun i hd => ?_,
    fun op a => stepWith_reported_address h⟩
  · rw [stepWith_pc_of_no_jump h hj, advance_pc_toNat]
  · rw [← advance_eq_begun, ← stepWith_ok hd, h]

end Sys2Proof.Machine
end

section
/-! Proofs of the family `42_alu.md`: the shape that the binary instructions share (R90), in the terms of the
statements, and then the function of each. -/

namespace Sys2Proof.Machine

open Claims (HasValue Stored readFault writeFault EncodedWithTwoOperands BinaryFaults BinaryResult)

/-! The fault columns of R76 against the model's accesses. -/

/-- A read that faults raises the fault of the ReadOperand column. -/
theorem readFault_of_readOperand_error {o : Operand} {s : State} {g : Fault}
    (h : readOperand o s = .error g) : readFault o = some g := by
  cases o with
  | const b => simp [readOperand_const] at h
  | memC b => simp [readOperand_memC] at h
  | unknown m b => simpa [readOperand_unknown, readFault] using h
  | reg b =>
    rw [readOperand_reg] at h
    split at h
    · cases h
    · next hb => simpa [readFault, Nat.not_lt.mp hb] using h
  | memR b =>
    rw [readOperand_memR] at h
    split at h
    · cases h
    · next hb => simpa [readFault, Nat.not_lt.mp hb] using h

/-- A readable operand has no entry in the ReadOperand column. -/
theorem readFault_eq_none_of_hasValue {o : Operand} {s : State} {v : Byte} (h : HasValue o s v) :
    readFault o = none := by
  cases o with
  | const b => rfl
  | memC b => rfl
  | unknown m b => exact h.elim
  | reg b => obtain ⟨hb, -⟩ := h; simpa [readFault] using hb
  | memR b => obtain ⟨hb, -⟩ := h; simpa [readFault] using hb

/-- The two columns differ in the constant only, which is the one operand the check of R90 step 3 stops. -/
theorem writeFault_eq_none_iff {o : Operand} :
    writeFault o = none ↔ readFault o = none ∧ checkWritable o = .ok () := by
  cases o <;> simp [writeFault, readFault, checkWritable]

theorem writeFault_of_checkWritable_error {o : Operand} {g : Fault}
    (h : checkWritable o = .error g) : writeFault o = some g := by
  cases o <;> cases h
  rfl

/-- An operand with no entry in the WriteOperand column is written, and the write is the one the statements
speak of (R73 to R75). -/
theorem writeOperand_stored {o : Operand} (h : writeFault o = none) (v : Byte) (s : State) :
    ∃ t, Stored o v s t ∧ writeOperand o v s = .ok t := by
  cases o with
  | const b => cases h
  | unknown m b => cases h
  | memC b => exact ⟨_, rfl, writeOperand_memC b v s⟩
  | reg b =>
    have hb : b.toNat < 7 := by simpa [writeFault] using h
    exact ⟨_, ⟨hb, rfl⟩, by rw [writeOperand_reg, dif_pos hb]⟩
  | memR b =>
    have hb : b.toNat < 7 := by simpa [writeFault] using h
    exact ⟨_, ⟨hb, rfl⟩, by rw [writeOperand_memR, dif_pos hb]⟩

/-! The shape of a binary instruction, for whatever function it computes (R90). -/

section Shape

variable {f : Byte → Byte → Except Fault Byte} {mk : Operand → Operand → Instr}

/-- A binary operation with a bad access reports the fault of one: the accesses come before the function, so
the function has no part in it (R90 steps 1 to 3). -/
theorem runBinary_reports_access (f : Byte → Byte → Except Fault Byte) {src dest : Operand} (s : State)
    (h : readFault src ≠ none ∨ readFault dest ≠ none ∨ writeFault dest ≠ none) :
    ∃ g, (readFault src = some g ∨ readFault dest = some g ∨ writeFault dest = some g) ∧
      runBinary f src dest s = .next (raise g s) := by
  unfold runBinary
  cases ha : readOperand src s with
  | error g =>
    exact ⟨g, .inl (readFault_of_readOperand_error ha), by rw [binaryOp_src_error ha, complete_error]⟩
  | ok a =>
    cases hd : readOperand dest s with
    | error g =>
      exact ⟨g, .inr (.inl (readFault_of_readOperand_error hd)),
        by rw [binaryOp_dest_error ha hd, complete_error]⟩
    | ok d =>
      cases hw : checkWritable dest with
      | error g =>
        exact ⟨g, .inr (.inr (writeFault_of_checkWritable_error hw)),
          by rw [binaryOp_not_writable ha hd hw, complete_error]⟩
      | ok u =>
        have hsrc := readFault_eq_none_of_hasValue (readOperand_eq_ok_iff_hasValue.mp ha)
        have hdest := readFault_eq_none_of_hasValue (readOperand_eq_ok_iff_hasValue.mp hd)
        have hwrite := writeFault_eq_none_iff.mpr ⟨hdest, hw⟩
        simp [hsrc, hdest, hwrite] at h

/-- A binary operation whose accesses are all good and whose function answers `r` stores `r` (R90). -/
theorem runBinary_stores {src dest : Operand} {s : State} {a d r : Byte} (ha : HasValue src s a)
    (hd : HasValue dest s d) (hw : writeFault dest = none) (hf : f d a = .ok r) :
    ∃ t, Stored dest r s t ∧ runBinary f src dest s = .next t := by
  obtain ⟨-, hcheck⟩ := writeFault_eq_none_iff.mp hw
  obtain ⟨t, hstored, hwrite⟩ := writeOperand_stored hw r s
  refine ⟨t, hstored, ?_⟩
  rw [← readOperand_eq_ok_iff_hasValue] at ha hd
  rw [runBinary, binaryOp_ok ha hd hcheck hf, hwrite, complete_ok]

theorem binaryFaults_of_runBinary
    (hexec : ∀ src dest s, exec (mk src dest) s = runBinary f src dest s) : BinaryFaults mk := by
  intro src dest s h
  rw [hexec]
  exact runBinary_reports_access f s h

theorem binaryResult_of_runBinary {Allowed : Byte → Prop} {Result : Byte → Byte → Byte → Prop}
    (hexec : ∀ src dest s, exec (mk src dest) s = runBinary f src dest s)
    (hf : ∀ d a, Allowed a → ∃ r, Result d a r ∧ f d a = .ok r) :
    BinaryResult mk Allowed Result := by
  intro src dest s a d ha hd hw hallowed
  obtain ⟨r, hresult, hr⟩ := hf d a hallowed
  obtain ⟨t, hstored, hrun⟩ := runBinary_stores ha hd hw hr
  exact ⟨r, t, hresult, hstored, by rw [hexec, hrun]⟩

/-- The opcode byte selects an instruction that takes both operand fields (R51, R53). -/
theorem encodedWithTwoOperands_of_instrOf {op : Opcode} (hmk : ∀ a b, instrOf op a b = mk a b) :
    EncodedWithTwoOperands op mk := by
  intro n w hn hop
  rw [decodeWith_opc hn hop, hmk]

end Shape

/-! The dispatch of the instructions settled here. -/

theorem exec_add (src dest : Operand) (s : State) :
    exec (.add src dest) s = runBinary aluAdd src dest s := rfl

theorem exec_sub (src dest : Operand) (s : State) :
    exec (.sub src dest) s = runBinary aluSub src dest s := rfl

theorem exec_and (src dest : Operand) (s : State) :
    exec (.and src dest) s = runBinary aluAnd src dest s := rfl

theorem exec_or (src dest : Operand) (s : State) :
    exec (.or src dest) s = runBinary aluOr src dest s := rfl

/-! What each function answers. -/

/-- The sum modulo 256 (R91). -/
theorem aluAdd_wraps (d s : Byte) :
    ∃ r, r.toNat = (d.toNat + s.toNat) % 256 ∧ aluAdd d s = .ok r :=
  ⟨d + s, BitVec.toNat_add d s, rfl⟩

/-- The difference modulo 256, taken in the integers, where it can be negative (R92). -/
theorem aluSub_wraps (d s : Byte) :
    ∃ r, (r.toNat : Int) = ((d.toNat : Int) - (s.toNat : Int)) % 256 ∧ aluSub d s = .ok r := by
  refine ⟨d - s, ?_, rfl⟩
  rw [BitVec.toNat_sub]
  have := s.isLt
  omega

/-- The conjunction of each pair of bits (R96). -/
theorem aluAnd_bitwise (d s : Byte) :
    ∃ r, (∀ i : Fin 8, r[i.val] = true ↔ d[i.val] = true ∧ s[i.val] = true) ∧ aluAnd d s = .ok r :=
  ⟨d &&& s, fun i => by rw [BitVec.getElem_and, Bool.and_eq_true], rfl⟩

/-- The disjunction of each pair of bits (R97). -/
theorem aluOr_bitwise (d s : Byte) :
    ∃ r, (∀ i : Fin 8, r[i.val] = true ↔ d[i.val] = true ∨ s[i.val] = true) ∧ aluOr d s = .ok r :=
  ⟨d ||| s, fun i => by rw [BitVec.getElem_or, Bool.or_eq_true], rfl⟩

/-- Settles O19: the shape of a binary instruction with the wrapping sum as its function (R90, R91). -/
theorem addWritesTheWrappedSum : Obligations.AddWritesTheWrappedSum :=
  ⟨encodedWithTwoOperands_of_instrOf fun _ _ => rfl, binaryFaults_of_runBinary exec_add,
    binaryResult_of_runBinary exec_add fun d s _ => aluAdd_wraps d s⟩

/-- Settles O20: the same shape with the wrapping difference, destination minus source (R90, R92). -/
theorem subWritesTheWrappedDifference : Obligations.SubWritesTheWrappedDifference :=
  ⟨encodedWithTwoOperands_of_instrOf fun _ _ => rfl, binaryFaults_of_runBinary exec_sub,
    binaryResult_of_runBinary exec_sub fun d s _ => aluSub_wraps d s⟩

/-- Settles O24: the same shape with the bitwise conjunction (R90, R96). -/
theorem andWritesTheBitwiseAnd : Obligations.AndWritesTheBitwiseAnd :=
  ⟨encodedWithTwoOperands_of_instrOf fun _ _ => rfl, binaryFaults_of_runBinary exec_and,
    binaryResult_of_runBinary exec_and fun d s _ => aluAnd_bitwise d s⟩

/-- Settles O25: the same shape with the bitwise disjunction (R90, R97). -/
theorem orWritesTheBitwiseOr : Obligations.OrWritesTheBitwiseOr :=
  ⟨encodedWithTwoOperands_of_instrOf fun _ _ => rfl, binaryFaults_of_runBinary exec_or,
    binaryResult_of_runBinary exec_or fun d s _ => aluOr_bitwise d s⟩

end Sys2Proof.Machine
end

section
/-! Proofs of the family `44_control.md`: JUMP and the two reserved no-ops. -/

namespace Sys2Proof.Machine

open Claims (HasValue readFault begun)

/-- The converse of `readFault_of_readOperand_error`: an entry in the ReadOperand column of R76 is the fault
the read raises, in every state. -/
theorem readOperand_error_of_readFault {o : Operand} {f : Fault} (h : readFault o = some f) (s : State) :
    readOperand o s = .error f := by
  cases hr : readOperand o s with
  | ok v =>
    have hnone := readFault_eq_none_of_hasValue (readOperand_eq_ok_iff_hasValue.mp hr)
    cases h.symm.trans hnone
  | error g =>
    have hsome := readFault_of_readOperand_error hr
    cases h.symm.trans hsome
    rfl

/-! The dispatch of the instructions settled here. -/

theorem exec_jump (src : Operand) (s : State) : exec (.jump src) s = complete s (jumpOp src s) := rfl

theorem exec_ifOp (s : State) : exec .ifOp s = .next s := rfl

theorem exec_call (s : State) : exec .call s = .next s := rfl

/-- A step that fetches an opcode's byte runs that opcode's instruction in the state the statements call
begun, whatever the operand bytes are (R51, R80). -/
theorem stepWith_opc {n : Numbering} (hn : n.Lawful) {s : State} {op : Opcode}
    (hop : memRead s.pc s = n.opc op) :
    stepWith n s = exec (instrOf op (decodeOperand n (fetch s).mode1 (fetch s).byte1)
      (decodeOperand n (fetch s).mode2 (fetch s).byte2)) (begun s) := by
  rw [stepWith_ok (decodeWith_opc hn hop), advance_eq_begun]

/-- Settles O30: the jump is its read followed by the write of `pc`, so a value of operand 1 is the target,
and an entry in the ReadOperand column is the fault reported (R110). -/
theorem jumpSetsPcToOperandOne : Obligations.JumpSetsPcToOperandOne := by
  unfold Obligations.JumpSetsPcToOperandOne
  refine ⟨fun n w hn hop => ?_, fun src s v hv => ?_, fun src s f hf => ?_⟩
  · rw [decodeWith_opc hn hop, instrOf]
  · rw [exec_jump, jumpOp_ok (readOperand_eq_ok_iff_hasValue.mpr hv), complete_ok, setPc]
  · rw [exec_jump, jumpOp_error (readOperand_error_of_readFault hf s), complete_error,
      raise_eq_reported]

/-- Settles O33: IF's arm answers the state it is run in, and the opcode byte alone leads to it (R112). -/
theorem ifOnlyAdvancesPc : Obligations.IfOnlyAdvancesPc := by
  unfold Obligations.IfOnlyAdvancesPc
  exact ⟨exec_ifOp, fun n s hn hop => by rw [stepWith_opc hn hop, instrOf, exec_ifOp]⟩

/-- Settles O34: CALL's arm answers the state it is run in, and the opcode byte alone leads to it (R113). -/
theorem callOnlyAdvancesPc : Obligations.CallOnlyAdvancesPc := by
  unfold Obligations.CallOnlyAdvancesPc
  exact ⟨exec_call, fun n s hn hop => by rw [stepWith_opc hn hop, instrOf, exec_call]⟩

end Sys2Proof.Machine
end

section
/-! Proofs of the family `70_reset_and_hazards.md`: the reset move, and what the reset state reads as. -/

namespace Sys2Proof.Machine

@[simp] theorem hostMove_reset (n : Numbering) (s : State) : hostMove n .reset s = .next State.reset := rfl

/-- The reset state lists no cell, so each reads as an unlisted address does (R22, R150). -/
@[simp] theorem memRead_reset (a : Byte) : memRead a State.reset = 0 := by
  rw [memRead, reset_mem, Memory.lookup_nil]

/-- The eighth cell is reset like the seven usable registers (R150). -/
theorem reset_regs_getElem (i : Fin 8) : State.reset.regs[i.val] = 0 := by
  simp only [reset_regs, Vector.getElem_replicate]

/-- Settles O8: the reset move answers the reset state whatever the old state was; there the cells of memory
and of the register file are 0 by the two read laws, and `pc` and the outputs by their field lemmas (R150). -/
theorem resetZeroesEverything : Obligations.ResetZeroesEverything := by
  unfold Obligations.ResetZeroesEverything
  intro n s
  exact ⟨State.reset, hostMove_reset n s, rfl, memRead_reset, reset_regs_getElem, reset_pc,
    reset_charOut, reset_faultOut⟩

end Sys2Proof.Machine
end

section
/-! Decoder and encoder: an operand and its two bytes, an instruction and its operand fields, and from them
that each undoes the other. -/

namespace Sys2Proof

section Lookups

variable {n : Numbering}

/-! One operand and its two bytes (R48 to R50). -/

@[simp] theorem encodeMode_decodeOperand (m b : Byte) :
    encodeMode n (some (decodeOperand n m b)) = m := by
  cases hm : modeOf n m with
  | none => simp [decodeOperand, hm, encodeMode]
  | some k => cases k <;> simpa [decodeOperand, hm, encodeMode] using mode_of_modeOf hm

@[simp] theorem encodeByte_decodeOperand (m b : Byte) :
    encodeByte (some (decodeOperand n m b)) = b := by
  cases hm : modeOf n m with
  | none => simp [decodeOperand, hm, encodeByte]
  | some k => cases k <;> simp [decodeOperand, hm, encodeByte]

/-- The decoder calls a mode unknown only after it has compared the mode byte with all four (R49). -/
theorem decodeOperand_wf (m b : Byte) : (decodeOperand n m b).wf n = true := by
  cases hm : modeOf n m with
  | none => simpa [decodeOperand, hm] using wf_unknown.mpr (modeOf_none.mp hm)
  | some k => cases k <;> simp [decodeOperand, hm, Operand.wf]

theorem decodeOperand_encode (hn : n.Lawful) {o : Operand} (hw : o.wf n = true) :
    decodeOperand n (encodeMode n (some o)) (encodeByte (some o)) = o := by
  cases o with
  | const b => simp [decodeOperand, encodeMode, encodeByte, modeOf_mode hn]
  | reg b => simp [decodeOperand, encodeMode, encodeByte, modeOf_mode hn]
  | memC b => simp [decodeOperand, encodeMode, encodeByte, modeOf_mode hn]
  | memR b => simp [decodeOperand, encodeMode, encodeByte, modeOf_mode hn]
  | unknown m b =>
    simp [decodeOperand, encodeMode, encodeByte, modeOf_none.mpr (wf_unknown.mp hw)]

/-! An instruction and its operand fields (R53). -/

@[simp] theorem opcodeName_instrOf (op : Opcode) (a b : Operand) : opcodeName (instrOf op a b) = op := by
  cases op <;> rfl

theorem operand1_instrOf {op : Opcode} {a b o : Operand} (h : operand1 (instrOf op a b) = some o) :
    o = a := by
  cases op <;> cases h <;> rfl

theorem operand2_instrOf {op : Opcode} {a b o : Operand} (h : operand2 (instrOf op a b) = some o) :
    o = b := by
  cases op <;> cases h <;> rfl

/-- An instruction is its opcode with the operands it uses, whatever stands in the fields it does not use. -/
theorem instrOf_opcodeName {i : Instr} {a b : Operand} (ha : ∀ o, operand1 i = some o → a = o)
    (hb : ∀ o, operand2 i = some o → b = o) : instrOf (opcodeName i) a b = i := by
  cases i <;> simp_all [instrOf, opcodeName, operand1, operand2]

/-- Well-formedness is a matter of the used operands alone (R55, R56). -/
theorem instr_wf_iff {i : Instr} :
    i.wf n = true ↔
      (∀ o, operand1 i = some o → o.wf n = true) ∧ ∀ o, operand2 i = some o → o.wf n = true := by
  cases i <;> simp [Instr.wf, operand1, operand2]

/-- What the decoder answers has the fetched opcode byte, and its operands are those of the operand fields. -/
theorem decodeWith_operands {w : Window} {i : Instr} (h : decodeWith n w = .ok i) :
    n.opc (opcodeName i) = w.op ∧
      (∀ o, operand1 i = some o → o = decodeOperand n w.mode1 w.byte1) ∧
      ∀ o, operand2 i = some o → o = decodeOperand n w.mode2 w.byte2 := by
  obtain ⟨op, hop, rfl⟩ := decodeWith_ok h
  exact ⟨by rw [opcodeName_instrOf, hop], fun _ => operand1_instrOf, fun _ => operand2_instrOf⟩

theorem decodeWith_wf {w : Window} {i : Instr} (h : decodeWith n w = .ok i) : i.wf n = true := by
  obtain ⟨-, h1, h2⟩ := decodeWith_operands h
  exact instr_wf_iff.mpr
    ⟨fun o ho => h1 o ho ▸ decodeOperand_wf _ _, fun o ho => h2 o ho ▸ decodeOperand_wf _ _⟩

end Lookups

/-- Settles O1: the encoded opcode byte selects the instruction's own opcode, and each operand it uses is read
back from its two bytes, so the instruction is put together again (R45, R51, R53). -/
theorem decodeOfEncodeIsIdentity : Obligations.DecodeOfEncodeIsIdentity := by
  unfold Obligations.DecodeOfEncodeIsIdentity
  intro n i hn hw
  obtain ⟨hw1, hw2⟩ := instr_wf_iff.mp hw
  have hdecode := decodeWith_opc (w := encodeWith n i) hn rfl
  rw [hdecode, instrOf_opcodeName]
  · intro o ho
    simpa only [encodeWith, ho] using decodeOperand_encode hn (hw1 o ho)
  · intro o ho
    simpa only [encodeWith, ho] using decodeOperand_encode hn (hw2 o ho)

/-- Settles O2: a used operand is the decoding of its field, and the encoder undoes that (R45, R53). -/
theorem encodeOfDecodeKeepsUsedBytes : Obligations.EncodeOfDecodeKeepsUsedBytes := by
  unfold Obligations.EncodeOfDecodeKeepsUsedBytes
  intro n w i _ hd
  obtain ⟨hop, h1, h2⟩ := decodeWith_operands hd
  refine ⟨decodeWith_wf hd, hop, fun hused => ?_, fun hused => ?_⟩
  · obtain ⟨o, ho⟩ := Option.ne_none_iff_exists'.mp hused
    simp [encodeWith, ho, h1 o ho]
  · obtain ⟨o, ho⟩ := Option.ne_none_iff_exists'.mp hused
    simp [encodeWith, ho, h2 o ho]

/-- Settles O3: a byte outside `OPC` is refused by name, and the byte of an opcode decodes to that opcode's
instruction (R51, R54, R62). -/
theorem everyWindowHasOneDecoding : Obligations.EveryWindowHasOneDecoding := by
  unfold Obligations.EveryWindowHasOneDecoding
  intro n w hn
  exact ⟨decodeWith_unknownOpcode, fun o ho =>
    ⟨_, decodeWith_opc hn ho.symm, opcodeName_instrOf o _ _⟩⟩

/-- Settles O4: the instruction of these opcodes does not hold the fields in question, so two windows that
differ in them decode to the same one (R56). -/
theorem unusedBytesAreIgnored : Obligations.UnusedBytesAreIgnored := by
  unfold Obligations.UnusedBytesAreIgnored
  intro n w w' hn hop
  have hdecode {op : Opcode} (ho : w.op = n.opc op)
      (h : instrOf op (decodeOperand n w'.mode1 w'.byte1) (decodeOperand n w'.mode2 w'.byte2) =
        instrOf op (decodeOperand n w.mode1 w.byte1) (decodeOperand n w.mode2 w.byte2)) :
      decodeWith n w' = decodeWith n w := by
    rw [decodeWith_opc hn ho, decodeWith_opc hn (hop.trans ho), h]
  refine ⟨fun ho => ?_, fun ho hm hb => ?_⟩
  · rcases ho with ho | ho | ho
    · exact hdecode ho rfl
    · exact hdecode ho rfl
    · exact hdecode ho rfl
  · rcases ho with ho | ho
    · exact hdecode ho (by rw [instrOf, instrOf, hm, hb])
    · exact hdecode ho (by rw [instrOf, instrOf, hm, hb])

/-- Settles O5: the lookup of a mode compares whole bytes, and each outcome is one constructor that keeps the
operand byte (R48, R49). -/
theorem modeByteIsComparedWhole : Obligations.ModeByteIsComparedWhole := by
  unfold Obligations.ModeByteIsComparedWhole
  intro n m b hn
  have hmode {k : Mode} (hm : m = n.mode k) : modeOf n m = some k := by rw [hm, modeOf_mode hn]
  exact ⟨fun hm => by rw [decodeOperand, hmode hm], fun hm => by rw [decodeOperand, hmode hm],
    fun hm => by rw [decodeOperand, hmode hm], fun hm => by rw [decodeOperand, hmode hm],
    fun hne => by rw [decodeOperand, modeOf_none.mpr hne]⟩

/-- Settles O6: the lookups of opcode and mode undo the default numbers, so those are injective; the seven
fault codes are told apart pair by pair (D1, D2, D3). -/
theorem defaultNumberingIsLawful : Obligations.DefaultNumberingIsLawful where
  opc_injective a b h := by
    have found (o : Opcode) : opcodeOf defaultNumbering (defaultNumbering.opc o) = some o := by
      cases o <;> rfl
    exact Option.some.inj ((found a).symm.trans (h ▸ found b))
  mode_injective a b h := by
    have found (m : Mode) : modeOf defaultNumbering (defaultNumbering.mode m) = some m := by
      cases m <;> rfl
    exact Option.some.inj ((found a).symm.trans (h ▸ found b))
  faultCode_injective a b := by cases a <;> cases b <;> decide
  opc_crash := rfl
  faultCode_ne_zero f := by cases f <;> decide

/-- Settles O7: seven closed words, each decoded by evaluation. -/
theorem tableWordsDecodeToTheirInstructions : Obligations.TableWordsDecodeToTheirInstructions := by
  unfold Obligations.TableWordsDecodeToTheirInstructions
  decide

end Sys2Proof
end

section
/-! The step is total, and it keeps the invariant: one lemma per way a state is left, then the step, then every
run of host moves. -/

namespace Sys2Proof.Machine

/-! Everything answers a next state (R80, R88). -/

theorem exec_answers (i : Instr) (s : State) : ∃ t, exec i s = .next t := by
  cases i with
  | ifOp => exact ⟨s, exec_ifOp s⟩
  | call => exact ⟨s, exec_call s⟩
  | crash => exact complete_answers s (.error .explicitCrash)
  | print src => exact complete_answers s (printOp src s)
  | jump src => exact complete_answers s (jumpOp src s)
  | move src dest => exact complete_answers s (moveOp src dest s)
  | add src dest => exact complete_answers s (binaryOp aluAdd src dest s)
  | sub src dest => exact complete_answers s (binaryOp aluSub src dest s)
  | mul src dest => exact complete_answers s (binaryOp aluMul src dest s)
  | div src dest => exact complete_answers s (binaryOp aluDiv src dest s)
  | mod src dest => exact complete_answers s (binaryOp aluMod src dest s)
  | cmp src dest => exact complete_answers s (binaryOp aluCmp src dest s)
  | and src dest => exact complete_answers s (binaryOp aluAnd src dest s)
  | or src dest => exact complete_answers s (binaryOp aluOr src dest s)

theorem stepWith_answers (n : Numbering) (s : State) : ∃ t, stepWith n s = .next t := by
  cases hd : decodeWith n (fetch s) with
  | ok i => rw [stepWith_ok hd]; exact exec_answers i (advance s)
  | error e => exact ⟨_, stepWith_error hd⟩

theorem hostMove_answers (n : Numbering) (m : HostMove) (s : State) : ∃ t, hostMove n m s = .next t := by
  cases m with
  | reset => exact ⟨_, hostMove_reset n s⟩
  | load image => exact ⟨load image s, rfl⟩
  | step => exact stepWith_answers n s

theorem hostRun_answers (n : Numbering) (moves : List HostMove) (s : State) :
    ∃ t, hostRun n moves s = .next t := by
  induction moves generalizing s with
  | nil => exact ⟨s, hostRun_nil n s⟩
  | cons m rest ih =>
    obtain ⟨t, ht⟩ := hostMove_answers n m s
    rw [hostRun_cons ht]
    exact ih t

/-- Settles O40: an instruction completes or reports its fault in a next state, and so does the fall-through
arm; a run follows move by move (R80, R88). -/
theorem everyRunCompletes : Obligations.EveryRunCompletes :=
  ⟨stepWith_answers defaultNumbering, hostRun_answers⟩

section Kept

variable {n : Numbering} {s t : State}

/-- What every move keeps, a run keeps. -/
theorem hostRun_keeps {P : State → Prop} (hmove : ∀ m s t, P s → hostMove n m s = .next t → P t)
    {moves : List HostMove} (hs : P s) (h : hostRun n moves s = .next t) : P t := by
  induction moves generalizing s with
  | nil => cases h; exact hs
  | cons m rest ih =>
    obtain ⟨u, hu⟩ := hostMove_answers n m s
    rw [hostRun_cons hu] at h
    exact ih (hmove m s u hs hu) h

/-! What an instruction leaves satisfies the invariant, from the advanced state, where the outputs are idle. -/

theorem Inv.advanced (h : Inv n s) : Inv n (advance s) where
  mem_wf := h.mem_wf
  reg7_zero := h.reg7_zero
  one_output := .inl rfl
  char_recorded _ hv := nomatch hv
  fault_recorded _ hf := nomatch hf
  faults_possible := h.faults_possible

theorem Inv.raised (h : Inv n s) (hidle : s.charOut = none) {f : Fault} (hf : FaultPossible n f) :
    Inv n (raise f s) where
  mem_wf := h.mem_wf
  reg7_zero := h.reg7_zero
  one_output := .inl hidle
  char_recorded := h.char_recorded
  fault_recorded g hg := by simpa using hg
  faults_possible g hg := by
    rcases List.mem_append.mp hg with hold | hnew
    · exact h.faults_possible g hold
    · rwa [List.mem_singleton.mp hnew]

theorem Inv.emitted (h : Inv n s) (hidle : s.faultOut = none) (v : Byte) : Inv n (emit v s) where
  mem_wf := h.mem_wf
  reg7_zero := h.reg7_zero
  one_output := .inr hidle
  char_recorded w hw := by simpa using hw
  fault_recorded := h.fault_recorded
  faults_possible := h.faults_possible

/-- A change of memory, registers and `pc` that keeps the canonical form and `x[7]` keeps the rest, which
speaks of outputs and histories. -/
theorem Inv.stored (h : Inv n s) {mem : Memory} {regs : Vector Byte 8} (pc : Byte)
    (hmem : Memory.wf mem = true) (hreg7 : regs[7] = 0) :
    Inv n { s with mem := mem, regs := regs, pc := pc } where
  mem_wf := hmem
  reg7_zero := hreg7
  one_output := h.one_output
  char_recorded := h.char_recorded
  fault_recorded := h.fault_recorded
  faults_possible := h.faults_possible

theorem Effect.keeps_inv {i : Instr} (he : Effect i s t) (hchar : s.charOut = none)
    (hfault : s.faultOut = none) (h : Inv n s) : Inv n t := by
  cases he with
  | nothing _ => exact h
  | raised f hf => exact h.raised hchar (possible_of_instrFault hf)
  | emitted src v _ _ => exact h.emitted hfault v
  | jumped src v _ _ => exact h.stored v h.mem_wf h.reg7_zero
  | wroteReg dest r v _ _ => exact h.stored s.pc h.mem_wf ((writeReg_reg7 r v s).trans h.reg7_zero)
  | wroteCell dest a v _ _ => exact h.stored s.pc (memWrite_wf h.mem_wf a v) h.reg7_zero

theorem stepWith_keeps_inv (h : Inv n s) (hstep : stepWith n s = .next t) : Inv n t := by
  rcases stepWith_cases hstep with ⟨i, -, he⟩ | ⟨hop, rfl⟩
  · exact he.keeps_inv (advance_charOut s) (advance_faultOut s) h.advanced
  · exact h.advanced.raised (advance_charOut s) hop

theorem inv_reset (n : Numbering) : Inv n State.reset where
  mem_wf := Memory.wf_nil
  reg7_zero := reset_regs_getElem 7
  one_output := .inl rfl
  char_recorded _ hv := nomatch hv
  fault_recorded _ hf := nomatch hf
  faults_possible _ hf := nomatch hf

/-- A load changes memory only, and keeps its canonical form (R153). -/
theorem Inv.loaded (h : Inv n s) (image : List Byte) : Inv n (load image s) := by
  rw [load, loadFrom_eq]
  exact h.stored s.pc (load_wf image h.mem_wf) h.reg7_zero

theorem hostMove_keeps_inv (m : HostMove) (s t : State) (h : Inv n s)
    (hmove : hostMove n m s = .next t) : Inv n t := by
  cases m with
  | reset => cases hmove; exact inv_reset n
  | load image => cases hmove; exact h.loaded image
  | step => exact stepWith_keeps_inv h hmove

end Kept

/-- Settles O51: the reset state has no memory, no register, no output and no history that could break it. -/
theorem resetSatisfiesTheInvariant : Obligations.ResetSatisfiesTheInvariant :=
  inv_reset

/-- Settles O52: the advance makes both outputs idle, and from there each effect of an instruction, and the
report of an unknown opcode, keeps the invariant (R13, R84, R123, R140). -/
theorem stepKeepsTheInvariant : Obligations.StepKeepsTheInvariant :=
  ⟨fun _ _ _ => stepWith_keeps_inv, fun _ _ => stepWith_keeps_inv⟩

/-- Settles O53: the reset state has the invariant and every host move keeps it, so every run does (R13). -/
theorem reachableStatesSatisfyTheInvariant : Obligations.ReachableStatesSatisfyTheInvariant := by
  unfold Obligations.ReachableStatesSatisfyTheInvariant
  rintro n s ⟨moves, hrun⟩
  have hinv : Inv n s := hostRun_keeps hostMove_keeps_inv (inv_reset n) hrun
  exact ⟨hinv, hinv.reg7_zero⟩

end Sys2Proof.Machine
end

section
/-! The instructions that move, compute, emit or raise: MUL, DIV, MOD, CMP by the shared shape of R90, then
MOVE, PRINT and CRASH. -/

namespace Sys2Proof.Machine

open Claims (HasValue Stored readFault writeFault reported begun ZeroSourceHitsZero)

/-! The dispatch of the instructions settled here. -/

theorem exec_crash (s : State) : exec .crash s = .next (raise .explicitCrash s) := rfl

theorem exec_print (src : Operand) (s : State) :
    exec (.print src) s = complete s (printOp src s) := rfl

theorem exec_move (src dest : Operand) (s : State) :
    exec (.move src dest) s = complete s (moveOp src dest s) := rfl

theorem exec_mul (src dest : Operand) (s : State) :
    exec (.mul src dest) s = runBinary aluMul src dest s := rfl

theorem exec_div (src dest : Operand) (s : State) :
    exec (.div src dest) s = runBinary aluDiv src dest s := rfl

theorem exec_mod (src dest : Operand) (s : State) :
    exec (.mod src dest) s = runBinary aluMod src dest s := rfl

theorem exec_cmp (src dest : Operand) (s : State) :
    exec (.cmp src dest) s = runBinary aluCmp src dest s := rfl

/-! The functions of MUL, DIV, MOD and CMP. -/

/-- The low byte of the unsigned product (R93). -/
theorem aluMul_wraps (d s : Byte) :
    ∃ r, r.toNat = (d.toNat * s.toNat) % 256 ∧ aluMul d s = .ok r :=
  ⟨d * s, BitVec.toNat_mul d s, rfl⟩

@[simp] theorem aluDiv_zero (d : Byte) : aluDiv d 0 = .error .hitZero := rfl

@[simp] theorem aluMod_zero (d : Byte) : aluMod d 0 = .error .hitZero := rfl

/-- A number that is no larger than a byte is that byte's number again. -/
theorem toNat_ofNat_of_le {k : Nat} {d : Byte} (h : k ≤ d.toNat) : (BitVec.ofNat 8 k).toNat = k := by
  rw [BitVec.toNat_ofNat, Nat.mod_eq_of_lt (h.trans_lt d.isLt)]

/-- The quotient fits in a byte, so nothing of it is lost (R94). -/
theorem aluDiv_quotient {d s : Byte} (hs : s ≠ 0) :
    ∃ r, r.toNat = d.toNat / s.toNat ∧ aluDiv d s = .ok r :=
  ⟨_, toNat_ofNat_of_le (Nat.div_le_self d.toNat s.toNat), if_neg hs⟩

/-- The remainder fits in a byte, so nothing of it is lost (R95). -/
theorem aluMod_remainder {d s : Byte} (hs : s ≠ 0) :
    ∃ r, r.toNat = d.toNat % s.toNat ∧ aluMod d s = .ok r :=
  ⟨_, toNat_ofNat_of_le (Nat.mod_le d.toNat s.toNat), if_neg hs⟩

/-- The three codes of CMP, each by its own comparison (R98). -/
theorem compareCode_order (d s : Byte) :
    (s.toNat < d.toNat → compareCode d s = 255) ∧ (d.toNat < s.toNat → compareCode d s = 1) ∧
      (d = s → compareCode d s = 0) := by
  refine ⟨fun h => ?_, fun h => ?_, fun h => ?_⟩
  · rw [compareCode, if_pos h]
  · rw [compareCode, if_neg h.le.not_gt, if_pos h]
  · rw [compareCode, h, if_neg (lt_irrefl _), if_neg (lt_irrefl _)]

/-! The shape of DIV and MOD at a zero source (R90 step 4). -/

/-- An operand with no entry in the ReadOperand column has a value. -/
theorem hasValue_of_readFault {o : Operand} (h : readFault o = none) (s : State) :
    ∃ v, HasValue o s v := by
  cases hr : readOperand o s with
  | ok v => exact ⟨v, readOperand_eq_ok_iff_hasValue.mp hr⟩
  | error g => rw [readFault_of_readOperand_error hr] at h; cases h

theorem zeroSourceHitsZero_of_runBinary {f : Byte → Byte → Except Fault Byte}
    {mk : Operand → Operand → Instr}
    (hexec : ∀ src dest s, exec (mk src dest) s = runBinary f src dest s)
    (hf : ∀ d, f d 0 = .error .hitZero) : ZeroSourceHitsZero mk := by
  intro src dest s ha hd hw
  obtain ⟨d, hd⟩ := hasValue_of_readFault hd s
  obtain ⟨-, hcheck⟩ := writeFault_eq_none_iff.mp hw
  rw [← readOperand_eq_ok_iff_hasValue] at ha hd
  rw [hexec, runBinary, binaryOp_compute_error ha hd hcheck (hf d), complete_error, raise_eq_reported]

/-- Settles O21: the shape of a binary instruction with the low byte of the product (R90, R93). -/
theorem mulWritesTheLowByteOfTheProduct : Obligations.MulWritesTheLowByteOfTheProduct :=
  ⟨encodedWithTwoOperands_of_instrOf fun _ _ => rfl, binaryFaults_of_runBinary exec_mul,
    binaryResult_of_runBinary exec_mul fun d s _ => aluMul_wraps d s⟩

/-- Settles O22: the same shape with the quotient, which the two bounds of rounding toward zero fix (R90,
R94). -/
theorem divWritesTheQuotient : Obligations.DivWritesTheQuotient := by
  refine ⟨encodedWithTwoOperands_of_instrOf fun _ _ => rfl, binaryFaults_of_runBinary exec_div,
    zeroSourceHitsZero_of_runBinary exec_div aluDiv_zero,
    binaryResult_of_runBinary exec_div fun d s hs => ?_⟩
  obtain ⟨r, hr, hdiv⟩ := aluDiv_quotient (d := d) hs
  refine ⟨r, ⟨?_, ?_⟩, hdiv⟩
  · rw [hr]
    exact Nat.div_mul_le_self d.toNat s.toNat
  · rw [hr]
    exact (Nat.div_lt_iff_lt_mul (BitVec.toNat_pos_of_ne_zero hs)).mp (Nat.lt_succ_self _)

/-- Settles O23: the same shape with the remainder (R90, R95). -/
theorem modWritesTheRemainder : Obligations.ModWritesTheRemainder := by
  refine ⟨encodedWithTwoOperands_of_instrOf fun _ _ => rfl, binaryFaults_of_runBinary exec_mod,
    zeroSourceHitsZero_of_runBinary exec_mod aluMod_zero,
    binaryResult_of_runBinary exec_mod fun d s hs => ?_⟩
  obtain ⟨r, hr, hmod⟩ := aluMod_remainder (d := d) hs
  refine ⟨r, ⟨?_, ?_⟩, hmod⟩
  · rw [hr]
    exact Nat.mod_lt d.toNat (BitVec.toNat_pos_of_ne_zero hs)
  · rw [hr]
    exact Nat.div_add_mod' d.toNat s.toNat

/-- Settles O26: the same shape with the code of the unsigned order (R90, R98). -/
theorem cmpWritesTheUnsignedOrder : Obligations.CmpWritesTheUnsignedOrder :=
  ⟨encodedWithTwoOperands_of_instrOf fun _ _ => rfl, binaryFaults_of_runBinary exec_cmp,
    binaryResult_of_runBinary exec_cmp fun d s _ => ⟨compareCode d s, compareCode_order d s, rfl⟩⟩

/-! MOVE: its read, and then its write. -/

theorem exec_move_of_hasValue {src : Operand} {s : State} {v : Byte} (hv : HasValue src s v)
    (dest : Operand) : exec (.move src dest) s = complete s (writeOperand dest v s) := by
  rw [exec_move, moveOp_ok (readOperand_eq_ok_iff_hasValue.mpr hv)]

/-- An operand with an entry in the WriteOperand column is not written, and the entry is the fault. -/
theorem writeOperand_error_of_writeFault {o : Operand} {f : Fault} (h : writeFault o = some f) (v : Byte)
    (s : State) : writeOperand o v s = .error f := by
  cases o with
  | const b => cases h; exact writeOperand_const b v s
  | unknown m b => cases h; exact writeOperand_unknown m b v s
  | memC b => cases h
  | reg b =>
    by_cases hb : b.toNat < 7
    · simp [writeFault, Nat.not_le.mpr hb] at h
    · simpa [writeOperand_reg, writeFault, hb, Nat.not_lt.mp hb] using h
  | memR b =>
    by_cases hb : b.toNat < 7
    · simp [writeFault, Nat.not_le.mpr hb] at h
    · simpa [writeOperand_memR, writeFault, hb, Nat.not_lt.mp hb] using h

/-- Settles O27: the read answers the source value or its fault, and then the write stores it or answers the
fault of the destination (R105). -/
theorem moveCopiesSourceToDestination : Obligations.MoveCopiesSourceToDestination := by
  refine ⟨encodedWithTwoOperands_of_instrOf fun _ _ => rfl, fun src dest s v hv hw => ?_,
    fun src dest s f hf => ?_, fun src dest s v f hv hf => ?_⟩
  · obtain ⟨t, hstored, hwrite⟩ := writeOperand_stored hw v s
    exact ⟨t, hstored, by rw [exec_move_of_hasValue hv, hwrite, complete_ok]⟩
  · rw [exec_move, moveOp_src_error (readOperand_error_of_readFault hf s), complete_error,
      raise_eq_reported]
  · rw [exec_move_of_hasValue hv, writeOperand_error_of_writeFault hf, complete_error, raise_eq_reported]

theorem exec_move_const (v : Byte) (dest : Operand) (s : State) :
    exec (.move (.const v) dest) s = complete s (writeOperand dest v s) :=
  exec_move_of_hasValue (src := .const v) (readOperand_eq_ok_iff_hasValue.mp (readOperand_const v s)) dest

theorem exec_move_const_memC (v a : Byte) (s : State) :
    exec (.move (.const v) (.memC a)) s = .next (memWrite a v s) := by
  rw [exec_move_const, writeOperand_memC, complete_ok]

theorem exec_move_const_reg (v : Byte) {i : Byte} (hi : i.toNat < 7) (s : State) :
    exec (.move (.const v) (.reg i)) s = .next (writeReg ⟨i.toNat, hi⟩ v s) := by
  rw [exec_move_const, writeOperand_of_resolve (resolve_reg hi s), writePlace,
    complete_ok]

theorem exec_move_const_memR (v : Byte) {i : Byte} (hi : i.toNat < 7) (s : State) :
    exec (.move (.const v) (.memR i)) s = .next (memWrite (readReg ⟨i.toNat, hi⟩ s) v s) := by
  rw [exec_move_const, writeOperand_of_resolve (resolve_memR hi s), writePlace,
    complete_ok]

/-- Settles O28: the pointer register reads back the address it was set to, so the second MOVE stores where
the direct one does (R75). -/
theorem storeThroughPointerEqualsDirectStore : Obligations.StoreThroughPointerEqualsDirectStore := by
  unfold Obligations.StoreThroughPointerEqualsDirectStore
  intro s a v i hwf hi
  refine ⟨_, _, _, exec_move_const_reg a hi s, exec_move_const_memR v hi _, exec_move_const_memC v a s,
    ?_, ?_⟩
  · rw [readReg_writeReg_same, memWrite_mem, memWrite_mem, writeReg_mem]
  · rw [readReg_writeReg_same]
    exact memRead_memWrite_same hwf a v

/-! PRINT and CRASH. -/

theorem exec_print_of_hasValue {src : Operand} {s : State} {v : Byte} (hv : HasValue src s v) :
    exec (.print src) s = .next (emit v s) := by
  rw [exec_print, printOp_ok (readOperand_eq_ok_iff_hasValue.mpr hv), complete_ok]

/-- Settles O29: the print is its read followed by the emission, so nothing else can change (R106). -/
theorem printEmitsOperandOne : Obligations.PrintEmitsOperandOne := by
  refine ⟨fun n w hn hop => ?_, fun src s v hv => ?_, fun src s f hf => ?_⟩
  · rw [decodeWith_opc hn hop, instrOf]
  · rw [exec_print_of_hasValue hv, emit]
  · rw [exec_print, printOp_error (readOperand_error_of_readFault hf s), complete_error,
      raise_eq_reported]

/-- Settles O32: CRASH raises its fault whatever the state is, and the opcode byte 0 is its byte under every
lawful numbering (R111). -/
theorem crashReportsExplicitCrash : Obligations.CrashReportsExplicitCrash := by
  refine ⟨fun s => ?_, fun n s hn hop => ?_⟩
  · rw [exec_crash, raise_eq_reported]
  · rw [stepWith_opc hn (hop.trans hn.opc_crash.symm), instrOf, exec_crash, raise_eq_reported]

/-- Settles O9: an empty memory reads 0 at `pc`, which is CRASH's byte (R22, R59). -/
theorem firstStepAfterResetCrashes : Obligations.FirstStepAfterResetCrashes := by
  unfold Obligations.FirstStepAfterResetCrashes
  intro n hn
  obtain ⟨-, hcrash⟩ := crashReportsExplicitCrash
  exact hcrash n State.reset hn (memRead_reset _)

end Sys2Proof.Machine
end

section
/-! The refinement: the model's accesses, its binary operations and its step against the reference machine of
the statements, which works on raw bytes and plain functions. -/

namespace Sys2Proof

theorem opc_eq_opc_iff {n : Numbering} (hn : n.Lawful) {a b : Opcode} : n.opc a = n.opc b ↔ a = b :=
  ⟨hn.opc_injective a b, congrArg n.opc⟩

end Sys2Proof

namespace Sys2Proof.Machine

open Claims

/-! The triple of a state. -/

theorem tripleOf_advance (s : State) :
    tripleOf (advance s) = { tripleOf s with pc := BitVec.ofNat 8 ((s.pc.toNat + 5) % 256) } := by
  have hpc : s.pc + 5 = BitVec.ofNat 8 ((s.pc.toNat + 5) % 256) := by bv_omega
  simp only [tripleOf, memRead_advance, advance_regs, advance_pc, hpc]

theorem refFetch_tripleOf (s : State) : refFetch (tripleOf s) = fetch s := by
  have haddr (k : Nat) : BitVec.ofNat 8 ((s.pc.toNat + k) % 256) = s.pc + BitVec.ofNat 8 k := by bv_omega
  have h0 : BitVec.ofNat 8 (s.pc.toNat % 256) = s.pc := by bv_omega
  simp only [refFetch, fetch, tripleOf, haddr, h0]
  rfl

theorem tripleOf_writeReg (i : Fin 7) (v : Byte) (s : State) :
    tripleOf (writeReg i v s) =
      { tripleOf s with x := fun j => if j.val = i.val then v else (tripleOf s).x j } := by
  simp only [tripleOf, memRead_writeReg, writeReg_regs, writeReg_pc, Vector.getElem_set, eq_comm]

theorem tripleOf_memWrite {s : State} (hw : Memory.wf s.mem = true) (a v : Byte) :
    tripleOf (memWrite a v s) =
      { tripleOf s with M := fun b => if b = a then v else (tripleOf s).M b } := by
  have hread (b : Byte) : memRead b (memWrite a v s) = if b = a then v else memRead b s := by
    split
    · next h => rw [h, memRead_memWrite_same hw]
    · next h => exact memRead_memWrite_ne h v s
  simp only [tripleOf, hread, memWrite_regs, memWrite_pc]

/-! The accesses (R66, R71). -/

section Accesses

variable {n : Numbering} (hn : n.Lawful)
include hn

theorem refRead_tripleOf (m b : Byte) (s : State) :
    refRead n m b (tripleOf s) = readOperand (decodeOperand n m b) s :=
  (readOperandFollowsThePseudocode n m b s hn).symm

theorem refWrite_tripleOf (m b v : Byte) {s : State} (hw : Memory.wf s.mem = true) :
    refWrite n m b v (tripleOf s) = (writeOperand (decodeOperand n m b) v s).map tripleOf := by
  rw [writeOperandFollowsThePseudocode n m b v s hn, refWrite]
  split
  · rfl
  split
  · split
    · next h => exact congrArg Except.ok (tripleOf_writeReg ⟨b.toNat, h⟩ v s).symm
    · rfl
  split
  · exact congrArg Except.ok (tripleOf_memWrite hw b v).symm
  split
  · split
    · exact congrArg Except.ok (tripleOf_memWrite hw _ v).symm
    · rfl
  · rfl

theorem checkWritable_decodeOperand (m b : Byte) :
    checkWritable (decodeOperand n m b) =
      if m = n.mode .const then .error .assignToConstant else .ok () := by
  rw [decodeOperand_eq_ite hn]
  split_ifs <;> rfl

end Accesses

/-! The functions of the binary opcodes (R91 to R98). -/

/-- The model's function of a binary opcode: the reference function, and HitZero where that has no value. -/
def ComputesAs (f : Byte → Byte → Except Fault Byte) (op : Opcode) : Prop :=
  ∀ d s, f d s = (refFunction op d s).elim (.error .hitZero) .ok

theorem aluAdd_computes : ComputesAs aluAdd .add := by
  intro d s
  obtain ⟨r, hr, h⟩ := aluAdd_wraps d s
  rw [h, refFunction, ← hr, BitVec.ofNat_toNat]
  rfl

theorem aluSub_computes : ComputesAs aluSub .sub := by
  intro d s
  obtain ⟨r, hr, h⟩ := aluSub_wraps d s
  rw [h, refFunction, ← hr, BitVec.ofInt_natCast, BitVec.ofNat_toNat]
  rfl

theorem aluMul_computes : ComputesAs aluMul .mul := by
  intro d s
  obtain ⟨r, hr, h⟩ := aluMul_wraps d s
  rw [h, refFunction, ← hr, BitVec.ofNat_toNat]
  rfl

theorem toNat_eq_zero_iff {s : Byte} : s.toNat = 0 ↔ s = 0 :=
  BitVec.toNat_inj (y := 0)

theorem aluDiv_computes : ComputesAs aluDiv .div := by
  intro d s
  simp only [aluDiv, refFunction, toNat_eq_zero_iff]
  split <;> rfl

theorem aluMod_computes : ComputesAs aluMod .mod := by
  intro d s
  simp only [aluMod, refFunction, toNat_eq_zero_iff]
  split <;> rfl

theorem aluAnd_computes : ComputesAs aluAnd .and := fun _ _ => rfl

theorem aluOr_computes : ComputesAs aluOr .or := fun _ _ => rfl

theorem aluCmp_computes : ComputesAs aluCmp .cmp := fun _ _ => rfl

/-- The shape of R90 on raw bytes, for whatever function the opcode computes. -/
theorem refBinary_tripleOf {n : Numbering} (hn : n.Lawful) {f : Byte → Byte → Except Fault Byte}
    {op : Opcode} (hf : ComputesAs f op) (w : Window) {s : State} (hw : Memory.wf s.mem = true) :
    refBinary n op w (tripleOf s) = (binaryOp f (decodeOperand n w.mode1 w.byte1)
      (decodeOperand n w.mode2 w.byte2) s).map tripleOf := by
  rw [refBinary, refRead_tripleOf hn, refRead_tripleOf hn]
  cases ha : readOperand (decodeOperand n w.mode1 w.byte1) s with
  | error g => rw [binaryOp_src_error ha]; rfl
  | ok a =>
    cases hd : readOperand (decodeOperand n w.mode2 w.byte2) s with
    | error g => rw [binaryOp_dest_error ha hd]; rfl
    | ok d =>
      have hcheck := checkWritable_decodeOperand hn w.mode2 w.byte2
      have hcompute := hf d a
      dsimp only
      split
      · next hm =>
        rw [if_pos hm] at hcheck
        rw [binaryOp_not_writable ha hd hcheck]
        rfl
      · next hm =>
        rw [if_neg hm] at hcheck
        cases hr : refFunction op d a with
        | none =>
          rw [hr] at hcompute
          rw [binaryOp_compute_error ha hd hcheck hcompute]
          rfl
        | some r =>
          rw [hr] at hcompute
          rw [binaryOp_ok ha hd hcheck hcompute]
          exact refWrite_tripleOf hn _ _ r hw

/-! What a step yields. -/

/-- What a state after a step shows the host: its triple and its two outputs (R7, R84). -/
def yieldOf (t : State) : Yield where
  next := tripleOf t
  emitted := t.charOut
  fault := t.faultOut

/-- The outputs of a step that has put nothing on them yet. -/
def Idle (s : State) : Prop := s.charOut = none ∧ s.faultOut = none

theorem idle_advance (s : State) : Idle (advance s) := ⟨advance_charOut s, advance_faultOut s⟩

theorem yieldOf_idle {s : State} (h : Idle s) : yieldOf s = refDone (tripleOf s) := by
  rw [yieldOf, h.1, h.2, refDone]

theorem yieldOf_raise {s : State} (h : Idle s) (f : Fault) :
    yieldOf (raise f s) = refFaulted (tripleOf s) f := by
  rw [yieldOf, raise_charOut, raise_faultOut, h.1, refFaulted]
  rfl

theorem writeOperand_idle {o : Operand} {v : Byte} {s t : State} (hs : Idle s)
    (h : writeOperand o v s = .ok t) : Idle t := by
  rcases writeOperand_cases h with ⟨i, -, rfl⟩ | ⟨a, -, rfl⟩
  · exact hs
  · exact hs

theorem binaryOp_idle {f : Byte → Byte → Except Fault Byte} {src dest : Operand} {s t : State}
    (hs : Idle s) (h : binaryOp f src dest s = .ok t) : Idle t := by
  obtain ⟨-, -, r, -, -, -, -, hwrite⟩ := binaryOp_cases h
  exact writeOperand_idle hs hwrite

/-- An instruction that is to write yields what it wrote, or its fault in the state it was run in. -/
theorem yieldOf_complete {s t : State} {e : Except Fault State} (hs : Idle s)
    (he : ∀ u, e = .ok u → Idle u) (h : complete s e = .next t) :
    yieldOf t = refWrote (tripleOf s) (e.map tripleOf) := by
  rcases complete_next h with rfl | ⟨f, rfl, rfl⟩
  · exact yieldOf_idle (he t rfl)
  · exact yieldOf_raise hs f

/-- The dispatch of the reference machine once its opcode is known (R80). -/
def refDispatch (n : Numbering) (op : Opcode) (w : Window) (r : Triple) : Yield :=
  match op with
  | .crash => refFaulted r .explicitCrash
  | .print =>
    match refRead n w.mode1 w.byte1 r with
    | .ok v => { next := r, emitted := some v, fault := none }
    | .error f => refFaulted r f
  | .jump =>
    match refRead n w.mode1 w.byte1 r with
    | .ok t => refDone { r with pc := t }
    | .error f => refFaulted r f
  | .move =>
    match refRead n w.mode1 w.byte1 r with
    | .ok v => refWrote r (refWrite n w.mode2 w.byte2 v r)
    | .error f => refFaulted r f
  | .ifOp | .call => refDone r
  | .add | .sub | .mul | .div | .mod | .and | .or | .cmp => refWrote r (refBinary n op w r)

theorem refStep_opc {n : Numbering} (hn : n.Lawful) {s : State} {op : Opcode}
    (hop : (fetch s).op = n.opc op) :
    refStep n (tripleOf s) = refDispatch n op (fetch s) (tripleOf (advance s)) := by
  rw [tripleOf_advance]
  cases op <;> simp only [refStep, refFetch_tripleOf, hop, opc_eq_opc_iff hn, reduceCtorEq, if_true,
    if_false] <;> rfl

theorem refStep_unknown {n : Numbering} {s : State} (hop : ∀ o, n.opc o ≠ (fetch s).op) :
    refStep n (tripleOf s) =
      refFaulted (tripleOf (advance s)) (.unknownInstruction (fetch s).op s.pc) := by
  have hne (o : Opcode) : (fetch s).op ≠ n.opc o := (hop o).symm
  simp only [refStep, refFetch_tripleOf, hne, if_false, tripleOf_advance]
  rfl

/-- Each instruction yields, in the state it is run in, what the reference dispatch does on its raw bytes. -/
theorem exec_refines {n : Numbering} (hn : n.Lawful) {op : Opcode} {w : Window} {s t : State}
    (hw : Memory.wf s.mem = true) (hs : Idle s)
    (h : exec (instrOf op (decodeOperand n w.mode1 w.byte1) (decodeOperand n w.mode2 w.byte2)) s =
      .next t) :
    yieldOf t = refDispatch n op w (tripleOf s) := by
  have hbinary {f : Byte → Byte → Except Fault Byte} (hf : ComputesAs f op)
      (hrun : runBinary f (decodeOperand n w.mode1 w.byte1) (decodeOperand n w.mode2 w.byte2) s =
        .next t) :
      yieldOf t = refWrote (tripleOf s) (refBinary n op w (tripleOf s)) := by
    rw [refBinary_tripleOf hn hf w hw]
    exact yieldOf_complete hs (fun _ => binaryOp_idle hs) hrun
  cases op with
  | crash => cases h; exact yieldOf_raise hs _
  | ifOp => cases h; exact yieldOf_idle hs
  | call => cases h; exact yieldOf_idle hs
  | add => exact hbinary aluAdd_computes h
  | sub => exact hbinary aluSub_computes h
  | mul => exact hbinary aluMul_computes h
  | div => exact hbinary aluDiv_computes h
  | mod => exact hbinary aluMod_computes h
  | cmp => exact hbinary aluCmp_computes h
  | and => exact hbinary aluAnd_computes h
  | or => exact hbinary aluOr_computes h
  | print =>
    rw [instrOf, exec_print] at h
    rw [refDispatch, refRead_tripleOf hn]
    cases hr : readOperand (decodeOperand n w.mode1 w.byte1) s with
    | ok v => rw [printOp_ok hr] at h; cases h; simp only [yieldOf, emit_charOut, emit_faultOut, hs.2]; rfl
    | error f => rw [printOp_error hr] at h; cases h; exact yieldOf_raise hs f
  | jump =>
    rw [instrOf, exec_jump] at h
    rw [refDispatch, refRead_tripleOf hn]
    cases hr : readOperand (decodeOperand n w.mode1 w.byte1) s with
    | ok v => rw [jumpOp_ok hr] at h; cases h; exact yieldOf_idle hs
    | error f => rw [jumpOp_error hr] at h; cases h; exact yieldOf_raise hs f
  | move =>
    rw [instrOf, exec_move] at h
    rw [refDispatch, refRead_tripleOf hn]
    cases hr : readOperand (decodeOperand n w.mode1 w.byte1) s with
    | ok v =>
      rw [moveOp_ok hr] at h
      simp only [refWrite_tripleOf hn _ _ v hw]
      exact yieldOf_complete hs (fun _ => writeOperand_idle hs) h
    | error f => rw [moveOp_src_error hr] at h; cases h; exact yieldOf_raise hs f

theorem stepWith_refines {n : Numbering} (hn : n.Lawful) {s t : State} (hw : Memory.wf s.mem = true)
    (h : stepWith n s = .next t) : yieldOf t = refStep n (tripleOf s) := by
  cases hd : decodeWith n (fetch s) with
  | ok i =>
    obtain ⟨op, hop, rfl⟩ := decodeWith_ok hd
    rw [stepWith_ok hd] at h
    rw [refStep_opc hn hop.symm]
    exact exec_refines hn hw (idle_advance s) h
  | error e =>
    obtain ⟨-, hop⟩ := decodeWith_error hd
    rw [stepWith_error hd] at h
    cases h
    rw [refStep_unknown hop]
    exact yieldOf_raise (idle_advance s) _

/-- Every effect of an instruction keeps the canonical form of memory. -/
theorem Effect.mem_wf {i : Instr} {s t : State} (he : Effect i s t) (hw : Memory.wf s.mem = true) :
    Memory.wf t.mem = true := by
  cases he with
  | wroteCell dest a v _ _ => exact memWrite_wf hw a v
  | nothing _ => exact hw
  | raised f _ => exact hw
  | emitted src v _ _ => exact hw
  | jumped src v _ _ => exact hw
  | wroteReg dest r v _ _ => exact hw

theorem stepWith_mem_wf {n : Numbering} {s t : State} (hw : Memory.wf s.mem = true)
    (h : stepWith n s = .next t) : Memory.wf t.mem = true := by
  rcases stepWith_cases h with ⟨i, -, he⟩ | ⟨-, rfl⟩
  · exact he.mem_wf hw
  · exact hw

/-- Settles O57: the step answers a state, which yields what the reference machine does: the fetched bytes
agree, the opcode selects the same arm, and each arm commutes with taking the triple. -/
theorem stepRefinesTheReferenceMachine : Obligations.StepRefinesTheReferenceMachine := by
  unfold Obligations.StepRefinesTheReferenceMachine
  intro n s hn hw
  obtain ⟨t, ht⟩ := stepWith_answers n s
  have hyield := stepWith_refines hn hw ht
  exact ⟨t, ht, congrArg Yield.next hyield, congrArg Yield.emitted hyield, congrArg Yield.fault hyield,
    stepWith_mem_wf hw ht⟩

end Sys2Proof.Machine
end

section
/-! Faults: the first fault of an instruction, by which the priority list of R127 and the causes of each fault
are both proved; then what a faulting step leaves, and the fault port. -/

namespace Sys2Proof.Machine

open Claims (HasValue readFault writeFault rawReadFault rawWriteFault prioritisedFault refRead tripleOf)

/-! The fault of one access or computation. -/

/-- The fault an operation answers, if it answers one. -/
def faultOf {α : Type} : Except Fault α → Option Fault
  | .ok _ => none
  | .error f => some f

theorem readFault_eq_faultOf (o : Operand) (s : State) : readFault o = faultOf (readOperand o s) := by
  cases hr : readOperand o s with
  | ok v => exact readFault_eq_none_of_hasValue (readOperand_eq_ok_iff_hasValue.mp hr)
  | error f => exact readFault_of_readOperand_error hr

theorem writeFault_eq_faultOf (o : Operand) (v : Byte) (s : State) :
    writeFault o = faultOf (writeOperand o v s) := by
  cases hw : writeFault o with
  | none =>
    obtain ⟨t, -, ht⟩ := writeOperand_stored hw v s
    rw [ht]
    rfl
  | some f => rw [writeOperand_error_of_writeFault hw]; rfl

/-- HitZero where the operand can be read and is 0 (R90 step 4). -/
def zeroFault (o : Operand) (s : State) : Option Fault :=
  match readOperand o s with
  | .ok v => if v = 0 then some .hitZero else none
  | .error _ => none

/-- The fault of the accesses of a binary operation, in their order (R127 items 2 to 4). -/
def accessFault (src dest : Operand) : Option Fault :=
  ((readFault src).or (readFault dest)).or (writeFault dest)

/-- A binary operation reports the first of its accesses that faults, and then what its function reports of a
source that can be read. -/
theorem faultOf_binaryOp {f : Byte → Byte → Except Fault Byte} {src dest : Operand} {s : State}
    {compute : Option Fault} (hf : ∀ a d, readOperand src s = .ok a → faultOf (f d a) = compute) :
    faultOf (binaryOp f src dest s) = (accessFault src dest).or compute := by
  cases ha : readOperand src s with
  | error g =>
    rw [binaryOp_src_error ha, accessFault, readFault_of_readOperand_error ha]
    rfl
  | ok a =>
    have hsrc := readFault_eq_none_of_hasValue (readOperand_eq_ok_iff_hasValue.mp ha)
    cases hd : readOperand dest s with
    | error g =>
      rw [binaryOp_dest_error ha hd, accessFault, hsrc, readFault_of_readOperand_error hd]
      rfl
    | ok d =>
      have hdest := readFault_eq_none_of_hasValue (readOperand_eq_ok_iff_hasValue.mp hd)
      cases hc : checkWritable dest with
      | error g =>
        rw [binaryOp_not_writable ha hd hc, accessFault, hsrc, hdest,
          writeFault_of_checkWritable_error hc]
        rfl
      | ok u =>
        have hwrite := writeFault_eq_none_iff.mpr ⟨hdest, hc⟩
        rw [accessFault, hsrc, hdest, hwrite, ← hf a d ha]
        cases hr : f d a with
        | error g => rw [binaryOp_compute_error ha hd hc hr]; rfl
        | ok r => rw [binaryOp_ok ha hd hc hr, ← writeFault_eq_faultOf, hwrite]; rfl

/-! The first fault of an instruction. -/

/-- The fault an instruction reports, by the list of R127. -/
def firstFault : Instr → State → Option Fault
  | .crash, _ => some .explicitCrash
  | .ifOp, _ | .call, _ => none
  | .print src, _ | .jump src, _ => readFault src
  | .move src dest, _ => (readFault src).or (writeFault dest)
  | .div src dest, s | .mod src dest, s => (accessFault src dest).or (zeroFault src s)
  | .add src dest, _ | .sub src dest, _ | .mul src dest, _ | .cmp src dest, _ | .and src dest, _
  | .or src dest, _ => accessFault src dest

@[simp] theorem firstFault_advance (i : Instr) (s : State) : firstFault i (advance s) = firstFault i s := by
  cases i <;> simp only [firstFault, zeroFault, readOperand_advance]

theorem complete_faultOut {s t : State} {e : Except Fault State}
    (he : ∀ u, e = .ok u → u.faultOut = none) (h : complete s e = .next t) : t.faultOut = faultOf e := by
  rcases complete_next h with rfl | ⟨f, rfl, rfl⟩
  · exact he t rfl
  · exact raise_faultOut f s

theorem runBinary_faultOut {f : Byte → Byte → Except Fault Byte} {src dest : Operand} {s t : State}
    {compute : Option Fault} (hs : Idle s)
    (hf : ∀ a d, readOperand src s = .ok a → faultOf (f d a) = compute)
    (h : runBinary f src dest s = .next t) : t.faultOut = (accessFault src dest).or compute := by
  rw [complete_faultOut (fun _ hu => (binaryOp_idle hs hu).2) h, faultOf_binaryOp hf]

/-- A binary operation whose function answers a byte for all bytes reports its accesses only. -/
theorem runBinary_faultOut_of_total {f : Byte → Byte → Except Fault Byte} {src dest : Operand}
    {s t : State} (hs : Idle s) (hf : ∀ d a, faultOf (f d a) = none)
    (h : runBinary f src dest s = .next t) : t.faultOut = accessFault src dest := by
  rw [runBinary_faultOut hs (fun a d _ => hf d a) h, Option.or_none]

theorem faultOf_aluDiv (d a : Byte) : faultOf (aluDiv d a) = if a = 0 then some .hitZero else none := by
  rw [aluDiv]
  split <;> rfl

theorem faultOf_aluMod (d a : Byte) : faultOf (aluMod d a) = if a = 0 then some .hitZero else none := by
  rw [aluMod]
  split <;> rfl

/-- A binary operation that checks its divisor reports it after its accesses. -/
theorem runBinary_faultOut_of_divisor {f : Byte → Byte → Except Fault Byte} {src dest : Operand}
    {s t : State} (hs : Idle s) (hf : ∀ d a, faultOf (f d a) = if a = 0 then some .hitZero else none)
    (h : runBinary f src dest s = .next t) :
    t.faultOut = (accessFault src dest).or (zeroFault src s) := by
  refine runBinary_faultOut hs (fun a d ha => ?_) h
  rw [hf, zeroFault, ha]

/-- The fault output after an instruction is its first fault. -/
theorem exec_faultOut {i : Instr} {s t : State} (hs : Idle s) (h : exec i s = .next t) :
    t.faultOut = firstFault i s := by
  cases i with
  | crash => cases h; rfl
  | ifOp => cases h; exact hs.2
  | call => cases h; exact hs.2
  | add src dest => exact runBinary_faultOut_of_total hs (fun _ _ => rfl) h
  | sub src dest => exact runBinary_faultOut_of_total hs (fun _ _ => rfl) h
  | mul src dest => exact runBinary_faultOut_of_total hs (fun _ _ => rfl) h
  | cmp src dest => exact runBinary_faultOut_of_total hs (fun _ _ => rfl) h
  | and src dest => exact runBinary_faultOut_of_total hs (fun _ _ => rfl) h
  | or src dest => exact runBinary_faultOut_of_total hs (fun _ _ => rfl) h
  | div src dest => exact runBinary_faultOut_of_divisor hs faultOf_aluDiv h
  | mod src dest => exact runBinary_faultOut_of_divisor hs faultOf_aluMod h
  | print src =>
    rw [exec_print] at h
    rw [firstFault, readFault_eq_faultOf src s]
    cases hr : readOperand src s with
    | ok v => rw [printOp_ok hr] at h; cases h; exact hs.2
    | error f => rw [printOp_error hr] at h; cases h; rfl
  | jump src =>
    rw [exec_jump] at h
    rw [firstFault, readFault_eq_faultOf src s]
    cases hr : readOperand src s with
    | ok v => rw [jumpOp_ok hr] at h; cases h; exact hs.2
    | error f => rw [jumpOp_error hr] at h; cases h; rfl
  | move src dest =>
    rw [exec_move] at h
    rw [firstFault, readFault_eq_faultOf src s]
    cases hr : readOperand src s with
    | ok v =>
      rw [moveOp_ok hr] at h
      rw [complete_faultOut (fun _ hu => (writeOperand_idle hs hu).2) h, ← writeFault_eq_faultOf]
      rfl
    | error f => rw [moveOp_src_error hr] at h; cases h; rfl

/-- The fault output after a step is the first fault of the decoded instruction in the state before it. -/
theorem stepWith_faultOut {n : Numbering} {s t : State} {i : Instr} (hd : decodeWith n (fetch s) = .ok i)
    (h : stepWith n s = .next t) : t.faultOut = firstFault i s := by
  rw [stepWith_ok hd] at h
  rw [exec_faultOut (idle_advance s) h, firstFault_advance]

/-! The priority list of the statements, on raw bytes. -/

theorem rawReadFault_eq {n : Numbering} (hn : n.Lawful) (m b : Byte) :
    rawReadFault n m b = readFault (decodeOperand n m b) := by
  rw [decodeOperand_eq_ite hn]
  by_cases hc : m = n.mode .const
  · simp [rawReadFault, hc, readFault]
  by_cases hr : m = n.mode .reg
  · simp [rawReadFault, hr, mode_eq_mode_iff hn, readFault]
  by_cases hmc : m = n.mode .memC
  · simp [rawReadFault, hmc, mode_eq_mode_iff hn, readFault]
  by_cases hmr : m = n.mode .memR
  · simp [rawReadFault, hmr, mode_eq_mode_iff hn, readFault]
  · simp [rawReadFault, hc, hr, hmc, hmr, readFault]

theorem rawWriteFault_eq {n : Numbering} (hn : n.Lawful) (m b : Byte) :
    rawWriteFault n m b = writeFault (decodeOperand n m b) := by
  rw [rawWriteFault, rawReadFault_eq hn, decodeOperand_eq_ite hn]
  split_ifs <;> rfl

theorem prioritisedFault_opc {n : Numbering} (hn : n.Lawful) {s : State} {op : Opcode}
    (hop : (fetch s).op = n.opc op) :
    prioritisedFault n s = firstFault (instrOf op (decodeOperand n (fetch s).mode1 (fetch s).byte1)
      (decodeOperand n (fetch s).mode2 (fetch s).byte2)) s := by
  cases op <;> simp only [prioritisedFault, hop, opc_eq_opc_iff hn, reduceCtorEq, or_true,
    or_false, if_true, if_false, rawReadFault_eq hn, rawWriteFault_eq hn, refRead_tripleOf hn] <;> rfl

theorem prioritisedFault_unknown {n : Numbering} {s : State} (hop : ∀ o, n.opc o ≠ (fetch s).op) :
    prioritisedFault n s = some (.unknownInstruction (fetch s).op s.pc) := by
  have hne (o : Opcode) : (fetch s).op ≠ n.opc o := (hop o).symm
  simp only [prioritisedFault, hne, or_false, if_false]

/-- Settles O47: both the step and the priority list report the first fault of the decoded instruction, or the
unknown opcode (R127). -/
theorem reportedFaultFollowsThePriorityList : Obligations.ReportedFaultFollowsThePriorityList := by
  unfold Obligations.ReportedFaultFollowsThePriorityList
  intro n s t hn h
  cases hd : decodeWith n (fetch s) with
  | ok i =>
    rw [stepWith_faultOut hd h]
    obtain ⟨op, hop, rfl⟩ := decodeWith_ok hd
    exact (prioritisedFault_opc hn hop.symm).symm
  | error e =>
    rw [stepWith_error hd] at h
    cases h
    rw [prioritisedFault_unknown (decodeWith_error hd).2, raise_faultOut]

/-! The causes of a fault. -/

/-- The instruction uses this operand (R53). -/
def Uses (i : Instr) (o : Operand) : Prop := operand1 i = some o ∨ operand2 i = some o

/-- What in an instruction and the state it runs in causes each fault it can report (R128). -/
inductive FaultCause (i : Instr) (s : State) : Fault → Prop where
  | crash : i = .crash → FaultCause i s .explicitCrash
  | divisor (src dest : Operand) : (i = .div src dest ∨ i = .mod src dest) → HasValue src s 0 →
      FaultCause i s .hitZero
  | constant (c : Byte) : operand2 i = some (.const c) → FaultCause i s .assignToConstant
  | index (o : Operand) (b : Byte) : Uses i o → (o = .reg b ∨ o = .memR b) → 7 ≤ b.toNat →
      FaultCause i s (.badRegister b)
  | mode (m b : Byte) : Uses i (.unknown m b) → FaultCause i s .unknownAddressingMode

section Causes

variable {i : Instr} {s : State} {f : Fault}

theorem faultCause_of_readFault {o : Operand} (hu : Uses i o) (h : readFault o = some f) :
    FaultCause i s f := by
  cases o with
  | const b => cases h
  | memC b => cases h
  | unknown m b => cases h; exact .mode m b hu
  | reg b =>
    obtain ⟨hb, rfl⟩ : 7 ≤ b.toNat ∧ Fault.badRegister b = f := by simpa [readFault] using h
    exact .index _ b hu (.inl rfl) hb
  | memR b =>
    obtain ⟨hb, rfl⟩ : 7 ≤ b.toNat ∧ Fault.badRegister b = f := by simpa [readFault] using h
    exact .index _ b hu (.inr rfl) hb

theorem faultCause_of_writeFault {o : Operand} (hu : operand2 i = some o) (h : writeFault o = some f) :
    FaultCause i s f := by
  cases o with
  | const c => cases h; exact .constant c hu
  | _ => exact faultCause_of_readFault (.inr hu) h

theorem faultCause_of_accessFault {src dest : Operand} (h1 : operand1 i = some src)
    (h2 : operand2 i = some dest) (h : accessFault src dest = some f) : FaultCause i s f := by
  rw [accessFault, Option.or_eq_some_iff, Option.or_eq_some_iff] at h
  rcases h with (h | ⟨-, h⟩) | ⟨-, h⟩
  · exact faultCause_of_readFault (.inl h1) h
  · exact faultCause_of_readFault (.inr h2) h
  · exact faultCause_of_writeFault h2 h

theorem zeroFault_eq_some {o : Operand} (h : zeroFault o s = some f) : f = .hitZero ∧ HasValue o s 0 := by
  rw [zeroFault] at h
  split at h
  · next v hv =>
    split at h
    · next hz => cases h; exact ⟨rfl, readOperand_eq_ok_iff_hasValue.mp (hz ▸ hv)⟩
    · cases h
  · cases h

theorem faultCause_of_divisor {src dest : Operand} (hi : i = .div src dest ∨ i = .mod src dest)
    (h1 : operand1 i = some src) (h2 : operand2 i = some dest)
    (h : (accessFault src dest).or (zeroFault src s) = some f) : FaultCause i s f := by
  rcases Option.or_eq_some_iff.mp h with h | ⟨-, h⟩
  · exact faultCause_of_accessFault h1 h2 h
  · obtain ⟨rfl, hzero⟩ := zeroFault_eq_some h
    exact .divisor src dest hi hzero

theorem faultCause_of_firstFault (h : firstFault i s = some f) : FaultCause i s f := by
  cases i with
  | crash => cases h; exact .crash rfl
  | ifOp => cases h
  | call => cases h
  | print src => exact faultCause_of_readFault (.inl rfl) h
  | jump src => exact faultCause_of_readFault (.inl rfl) h
  | move src dest =>
    rcases Option.or_eq_some_iff.mp h with h | ⟨-, h⟩
    · exact faultCause_of_readFault (.inl rfl) h
    · exact faultCause_of_writeFault rfl h
  | div src dest => exact faultCause_of_divisor (.inl rfl) rfl rfl h
  | mod src dest => exact faultCause_of_divisor (.inr rfl) rfl rfl h
  | add src dest => exact faultCause_of_accessFault rfl rfl h
  | sub src dest => exact faultCause_of_accessFault rfl rfl h
  | mul src dest => exact faultCause_of_accessFault rfl rfl h
  | cmp src dest => exact faultCause_of_accessFault rfl rfl h
  | and src dest => exact faultCause_of_accessFault rfl rfl h
  | or src dest => exact faultCause_of_accessFault rfl rfl h

/-- A fault after a step has a cause in the decoded instruction, or it is the dispatcher's. -/
theorem stepWith_cause {n : Numbering} {t : State} (h : stepWith n s = .next t)
    (hf : t.faultOut = some f) :
    (∃ i, decodeWith n (fetch s) = .ok i ∧ FaultCause i s f) ∨
    ((∀ o, n.opc o ≠ (fetch s).op) ∧ f = .unknownInstruction (fetch s).op s.pc) := by
  cases hd : decodeWith n (fetch s) with
  | ok i =>
    rw [stepWith_faultOut hd h] at hf
    exact .inl ⟨i, rfl, faultCause_of_firstFault hf⟩
  | error e =>
    rw [stepWith_error hd] at h
    cases h
    exact .inr ⟨(decodeWith_error hd).2, (Option.some.inj hf).symm⟩

theorem stepWith_instr_cause {n : Numbering} {t : State} (h : stepWith n s = .next t)
    (hf : t.faultOut = some f) (hne : ∀ op a, f ≠ .unknownInstruction op a) :
    ∃ i, decodeWith n (fetch s) = .ok i ∧ FaultCause i s f :=
  (stepWith_cause h hf).resolve_right fun hdispatch => hne _ _ hdispatch.2

end Causes

/-- An unknown mode that the decoder answers is outside `MODE` (R55). -/
theorem mode_ne_of_decodeWith {n : Numbering} {w : Window} {i : Instr} {m b : Byte}
    (hd : decodeWith n w = .ok i) (hu : Uses i (.unknown m b)) : ∀ k, n.mode k ≠ m := by
  obtain ⟨h1, h2⟩ := instr_wf_iff.mp (decodeWith_wf hd)
  exact wf_unknown.mp (hu.elim (h1 _) (h2 _))

/-- Settles O48: each fault a step can report has one kind of cause, so the fault tells the cause (R128,
R140). -/
theorem faultsComeFromTheirCauses : Obligations.FaultsComeFromTheirCauses := by
  unfold Obligations.FaultsComeFromTheirCauses
  intro n s t h
  refine ⟨fun hf => ?_, fun hf => ?_, fun hf => ?_, fun hf => ?_, fun b hf => ?_, fun hf => ?_,
    fun op a hf => ?_⟩
  · obtain ⟨i, -, hc⟩ := stepWith_instr_cause h hf nofun
    cases hc
  · obtain ⟨i, hd, hc⟩ := stepWith_instr_cause h hf nofun
    cases hc with
    | divisor src dest hi hzero =>
      refine ⟨src, dest, ?_⟩
      rcases hi with rfl | rfl
      · exact .inl ⟨hd, hzero⟩
      · exact .inr ⟨hd, hzero⟩
  · obtain ⟨i, hd, hc⟩ := stepWith_instr_cause h hf nofun
    cases hc with
    | constant c hi => exact ⟨i, c, hd, hi⟩
  · obtain ⟨i, hd, hc⟩ := stepWith_instr_cause h hf nofun
    cases hc with
    | crash hi => rw [hd, hi]
  · obtain ⟨i, hd, hc⟩ := stepWith_instr_cause h hf nofun
    cases hc with
    | index o _ hu ho hb => exact ⟨hb, i, o, hd, hu, ho⟩
  · obtain ⟨i, hd, hc⟩ := stepWith_instr_cause h hf nofun
    cases hc with
    | mode m b hu => exact ⟨i, m, b, hd, hu, mode_ne_of_decodeWith hd hu⟩
  · rcases stepWith_cause h hf with ⟨i, -, hc⟩ | ⟨hop, hc⟩
    · cases hc
    · cases hc
      exact ⟨fetch_op s, rfl, hop⟩

/-! What a faulting step leaves. -/

/-- The one effect that puts a fault on an idle fault output. -/
theorem Effect.eq_raise {i : Instr} {s t : State} {f : Fault} (he : Effect i s t)
    (hidle : s.faultOut = none) (hf : t.faultOut = some f) : t = raise f s := by
  cases he with
  | raised g _ => cases hf; rfl
  | nothing _ => simp [hidle] at hf
  | emitted src v _ _ => simp [hidle] at hf
  | jumped src v _ _ => simp [hidle] at hf
  | wroteReg dest r v _ _ => simp [hidle] at hf
  | wroteCell dest a v _ _ => simp [hidle] at hf

theorem stepWith_eq_raise {n : Numbering} {s t : State} {f : Fault} (h : stepWith n s = .next t)
    (hf : t.faultOut = some f) : t = raise f (advance s) := by
  rcases stepWith_cases h with ⟨i, -, he⟩ | ⟨-, rfl⟩
  · exact he.eq_raise (advance_faultOut s) hf
  · cases hf; rfl

/-- Settles O43: a faulting step is the advance and the report, and these two change nothing else (R126). -/
theorem faultingStepChangesOnlyPc : Obligations.FaultingStepChangesOnlyPc := by
  unfold Obligations.FaultingStepChangesOnlyPc
  intro n s t f h hf
  rw [stepWith_eq_raise h hf, raise, advance]

/-- A step is made of the fetched bytes and the advanced state. -/
theorem stepWith_congr {n : Numbering} {s t : State} (hfetch : fetch s = fetch t)
    (hadvance : advance s = advance t) : stepWith n s = stepWith n t := by
  rw [stepWith, stepWith, hfetch, hadvance]

/-- Settles O49: the report of the fault stands on an output that the next step clears before it runs, so
the step after it is the one from the same state without the report (R129). -/
theorem stepAfterFaultGoesOn : Obligations.StepAfterFaultGoesOn := by
  unfold Obligations.StepAfterFaultGoesOn
  intro n s t f h hf
  obtain ⟨u, hu⟩ := stepWith_answers n t
  refine ⟨u, hu, ?_⟩
  rw [← hu, stepWith_eq_raise h hf]
  exact stepWith_congr rfl rfl

/-! The fault port. -/

section Port

variable {s : State} {f : Fault}

theorem faultCode_of_fault (n : Numbering) (h : s.faultOut = some f) :
    faultCode n s = n.faultCode (faultName f) := by
  rw [faultCode, h]

theorem faultInfo_of_badRegister {i : Byte} (h : s.faultOut = some (.badRegister i)) :
    faultInfo s = i ∧ faultAddr s = 0 := by
  simp [faultInfo, faultAddr, h]

theorem faultInfo_of_unknownInstruction {op a : Byte} (h : s.faultOut = some (.unknownInstruction op a)) :
    faultInfo s = op ∧ faultAddr s = a := by
  simp [faultInfo, faultAddr, h]

theorem faultInfo_of_other (h : s.faultOut = some f) (hreg : faultName f ≠ .badRegister)
    (hop : faultName f ≠ .unknownInstruction) : faultInfo s = 0 ∧ faultAddr s = 0 := by
  cases f with
  | badRegister i => exact absurd rfl hreg
  | unknownInstruction op a => exact absurd rfl hop
  | _ => simp [faultInfo, faultAddr, h]

end Port

/-- Settles O50: the port reads the fault output and nothing else, and the codes are told apart because the
numbering is injective and gives no fault the code 0 (R122, R139). -/
theorem faultPortShowsTheFault : Obligations.FaultPortShowsTheFault := by
  unfold Obligations.FaultPortShowsTheFault
  intro n s hn
  refine ⟨fun h => ?_, fun f h => ⟨?_, ?_, fun g => ?_, ?_, ?_, faultInfo_of_other h⟩⟩
  · simp [faultValid, faultCode, faultInfo, faultAddr, h]
  · rw [faultValid, h, Option.isSome_some]
  · rw [faultCode_of_fault n h]
    exact hn.faultCode_ne_zero _
  · rw [faultCode_of_fault n h]
    exact ⟨hn.faultCode_injective _ _, congrArg n.faultCode⟩
  · rintro i rfl
    exact faultInfo_of_badRegister h
  · rintro op a rfl
    exact faultInfo_of_unknownInstruction h

end Sys2Proof.Machine
end

section
/-! Frames: what the two kinds of instruction and the step leave unchanged, read off the effects of an
instruction. -/

namespace Sys2Proof.Machine

open Claims (HasValue)

section Effects

variable {i : Instr} {s t : State}

/-- An instruction with an operand 2 faults, or writes the place that operand resolves to (R53, R77). -/
theorem Effect.of_operand2 {dest : Operand} (he : Effect i s t) (hi : operand2 i = some dest) :
    (∃ f, t = raise f s) ∨ (∃ r v, resolve dest s = .ok (.register r) ∧ t = writeReg r v s) ∨
      ∃ a v, resolve dest s = .ok (.cell a) ∧ t = memWrite a v s := by
  cases he with
  | raised f _ => exact .inl ⟨f, rfl⟩
  | wroteReg dest' r v hi' hr => cases hi.symm.trans hi'; exact .inr (.inl ⟨r, v, hr, rfl⟩)
  | wroteCell dest' a v hi' hr => cases hi.symm.trans hi'; exact .inr (.inr ⟨a, v, hr, rfl⟩)
  | nothing h => rcases h with rfl | rfl <;> cases hi
  | emitted src v h _ => subst h; cases hi
  | jumped src v h _ => subst h; cases hi

theorem regs_writeReg_ne {r : Fin 7} {j : Fin 8} (h : j.val ≠ r.val) (v : Byte) (s : State) :
    (writeReg r v s).regs[j.val] = s.regs[j.val] := by
  simp only [writeReg_regs, Vector.getElem_set_ne _ _ h.symm]

/-- A cell that differs is the one operand 2 resolves to (R84). -/
theorem Effect.cell_changed {a : Byte} (he : Effect i s t) (h : memRead a t ≠ memRead a s) :
    ∃ dest, operand2 i = some dest ∧ resolve dest s = .ok (.cell a) := by
  cases he with
  | wroteCell dest b v hi hr =>
    obtain rfl : a = b := by_contra fun hne => h (memRead_memWrite_ne hne v s)
    exact ⟨dest, hi, hr⟩
  | nothing _ => exact absurd rfl h
  | raised f _ => exact absurd rfl h
  | emitted src v _ _ => exact absurd rfl h
  | jumped src v _ _ => exact absurd rfl h
  | wroteReg dest r v _ _ => exact absurd rfl h

/-- A register that differs is the one operand 2 resolves to (R14, R84). -/
theorem Effect.register_changed {j : Fin 8} (he : Effect i s t) (h : t.regs[j.val] ≠ s.regs[j.val]) :
    ∃ dest r, operand2 i = some dest ∧ resolve dest s = .ok (.register r) ∧ r.val = j.val := by
  cases he with
  | wroteReg dest r v hi hr =>
    have hj : j.val = r.val := by_contra fun hne => h (regs_writeReg_ne hne v s)
    exact ⟨dest, r, hi, hr, hj.symm⟩
  | nothing _ => exact absurd rfl h
  | raised f _ => exact absurd rfl h
  | emitted src v _ _ => exact absurd rfl h
  | jumped src v _ _ => exact absurd rfl h
  | wroteCell dest a v _ _ => exact absurd rfl h

/-- A byte on a character output that was idle is one the instruction printed (R107). -/
theorem Effect.printed {v : Byte} (he : Effect i s t) (hidle : s.charOut = none)
    (h : t.charOut = some v) : ∃ src, i = .print src ∧ readOperand src s = .ok v := by
  cases he with
  | emitted src w hi hr => cases h; exact ⟨src, hi, hr⟩
  | nothing _ => simp [hidle] at h
  | raised f _ => simp [hidle] at h
  | jumped src w _ _ => simp [hidle] at h
  | wroteReg dest r w _ _ => simp [hidle] at h
  | wroteCell dest a w _ _ => simp [hidle] at h

/-- An effect from idle outputs appends to each history what it puts on that output (R23). -/
theorem Effect.histories (he : Effect i s t) (hs : Idle s) :
    t.emitted = s.emitted ++ t.charOut.toList ∧ t.faults = s.faults ++ t.faultOut.toList := by
  obtain ⟨hchar, hfault⟩ := hs
  cases he with
  | nothing _ => simp [hchar, hfault]
  | raised f _ => simp [hchar]
  | emitted src v _ _ => simp [hfault]
  | jumped src v _ _ => simp [hchar, hfault]
  | wroteReg dest r v _ _ => simp [hchar, hfault]
  | wroteCell dest a v _ _ => simp [hchar, hfault]

end Effects

/-- Resolving looks at no field that the advance changes (R15). -/
@[simp] theorem resolve_advance (o : Operand) (s : State) : resolve o (advance s) = resolve o s :=
  resolve_congr o fun i => readReg_advance i s

/-- Settles O35: each of the nine has `dest` as operand 2, so it faults or writes the place `dest` resolves
to, and each of the three ways leaves the rest (R77, R90, R105). -/
theorem storingInstructionsFrame : Obligations.StoringInstructionsFrame := by
  unfold Obligations.StoringInstructionsFrame
  intro src dest i s t hmem h
  have hdest : operand2 i = some dest := by
    revert i
    simp [operand2]
  rcases (exec_effect h).of_operand2 hdest with ⟨f, rfl⟩ | ⟨r, v, hr, rfl⟩ | ⟨a, v, hr, rfl⟩
  · exact ⟨fun _ _ => ⟨rfl, fun _ _ => rfl⟩, fun _ _ => ⟨fun _ => rfl, fun _ _ => rfl⟩,
      fun _ => ⟨rfl, fun _ => rfl⟩, rfl, rfl, rfl, .inr ⟨f, rfl, rfl, rfl, fun _ => rfl⟩⟩
  · refine ⟨fun a ha => ?_, fun r' hr' => ?_, fun hnone => ?_, rfl, rfl, rfl, .inl ⟨rfl, rfl⟩⟩
    · cases hr.symm.trans ha
    · cases hr.symm.trans hr'
      exact ⟨fun b => memRead_writeReg b r v s, fun j hj => regs_writeReg_ne hj v s⟩
    · simp [hr] at hnone
  · refine ⟨fun a' ha => ?_, fun r hr' => ?_, fun hnone => ?_, rfl, rfl, rfl, .inl ⟨rfl, rfl⟩⟩
    · cases hr.symm.trans ha
      exact ⟨memWrite_regs a v s, fun b hb => memRead_memWrite_ne hb v s⟩
    · cases hr.symm.trans hr'
    · simp [hr] at hnone

/-- Settles O36: an instruction without an operand 2 has no effect that writes; of those left, one emits, one
jumps, one reports a fault, and IF and CALL answer the state they run in (R106, R110 to R113). -/
theorem nonStoringInstructionsFrame : Obligations.NonStoringInstructionsFrame := by
  unfold Obligations.NonStoringInstructionsFrame
  intro src i s t hmem h
  have hno : operand2 i = none := by
    clear h
    revert i
    simp [operand2]
  have hnoop (hi : i = .ifOp ∨ i = .call) : t = s := by
    rcases hi with rfl | rfl <;> cases h <;> rfl
  have hnoop_fault (hi : i = .ifOp ∨ i = .call) : t.faultOut = s.faultOut ∧ t.faults = s.faults := by
    rw [hnoop hi]
    exact ⟨rfl, rfl⟩
  cases exec_effect h with
  | nothing _ =>
    exact ⟨fun _ => rfl, rfl, fun _ => rfl, fun _ => ⟨rfl, rfl⟩, hnoop_fault, .inl ⟨rfl, rfl⟩⟩
  | raised f _ =>
    exact ⟨fun _ => rfl, rfl, fun _ => rfl, fun _ => ⟨rfl, rfl⟩, hnoop_fault,
      .inr ⟨f, rfl, rfl, rfl, rfl, rfl⟩⟩
  | emitted src' v hi _ =>
    have hprint : i = .print src := by simpa [hi] using hmem
    exact ⟨fun _ => rfl, rfl, fun _ => rfl, fun hne => absurd hprint hne, hnoop_fault, .inl ⟨rfl, rfl⟩⟩
  | jumped src' v hi _ =>
    have hjump : i = .jump src := by simpa [hi] using hmem
    exact ⟨fun _ => rfl, rfl, fun hne => absurd hjump hne, fun _ => ⟨rfl, rfl⟩, hnoop_fault,
      .inl ⟨rfl, rfl⟩⟩
  | wroteReg dest r v hi _ => cases hno.symm.trans hi
  | wroteCell dest a v hi _ => cases hno.symm.trans hi

/-- Settles O44: what differs after the step was written by the instruction's one effect, in the advanced
state, where operand 2 resolves as it does before the step (R14, R84). -/
theorem stepWritesOnlyWhereOperandTwoPoints : Obligations.StepWritesOnlyWhereOperandTwoPoints := by
  unfold Obligations.StepWritesOnlyWhereOperandTwoPoints
  intro n s t h
  rcases stepWith_cases h with ⟨i, hd, he⟩ | ⟨-, rfl⟩
  · refine ⟨fun a ha => ?_, fun j hj => ?_⟩
    · obtain ⟨dest, hi, hr⟩ := he.cell_changed ha
      exact ⟨i, dest, hd, hi, by rw [← resolve_advance, hr]⟩
    · obtain ⟨dest, r, hi, hr, hrj⟩ := he.register_changed hj
      exact ⟨i, dest, r, hd, hi, by rw [← resolve_advance, hr], hrj⟩
  · exact ⟨fun a ha => absurd rfl ha, fun j hj => absurd rfl hj⟩

/-- Settles O45: from the advanced state, whose character output is idle, only a PRINT that reads its operand
emits, and it emits that value (R106, R107). -/
theorem onlyPrintEmits : Obligations.OnlyPrintEmits := by
  unfold Obligations.OnlyPrintEmits
  intro n s t v h
  constructor
  · intro hv
    rcases stepWith_cases h with ⟨i, hd, he⟩ | ⟨-, rfl⟩
    · obtain ⟨src, rfl, hr⟩ := he.printed (advance_charOut s) hv
      rw [readOperand_advance] at hr
      exact ⟨src, hd, readOperand_eq_ok_iff_hasValue.mp hr⟩
    · cases hv
  · rintro ⟨src, hd, hv⟩
    rw [← readOperand_eq_ok_iff_hasValue, ← readOperand_advance, readOperand_eq_ok_iff_hasValue] at hv
    rw [stepWith_ok hd, exec_print_of_hasValue hv] at h
    cases h
    exact emit_charOut v (advance s)

/-- A step appends to each history what it has on that output. -/
theorem stepWith_histories {n : Numbering} {s t : State} (h : stepWith n s = .next t) :
    t.emitted = s.emitted ++ t.charOut.toList ∧ t.faults = s.faults ++ t.faultOut.toList := by
  rcases stepWith_cases h with ⟨i, -, he⟩ | ⟨-, rfl⟩
  · exact he.histories (idle_advance s)
  · simp

/-- Settles O46: the advance makes the outputs idle, and each effect from there records what it shows (R23). -/
theorem historiesRecordTheOutputs : Obligations.HistoriesRecordTheOutputs :=
  fun _ _ _ => stepWith_histories

end Sys2Proof.Machine
end

section
/-! Noninterference: what an instruction does is one named change, and memory and the usable registers alone
decide which. -/

namespace Sys2Proof.Machine

/-- The one change an instruction makes to a state. -/
inductive Change where
  | nothing
  | raise (f : Fault)
  | emit (v : Byte)
  | setPc (v : Byte)
  | writeReg (r : Fin 7) (v : Byte)
  | memWrite (a v : Byte)

/-- Making the change in a state. -/
def Change.apply : Change → State → State
  | .nothing, s => s
  | .raise f, s => Machine.raise f s
  | .emit v, s => Machine.emit v s
  | .setPc v, s => Machine.setPc v s
  | .writeReg r v, s => Machine.writeReg r v s
  | .memWrite a v, s => Machine.memWrite a v s

/-- The two states agree in what an instruction can read: memory and the seven usable registers (R13, R15). -/
def SameData (s t : State) : Prop := t.mem = s.mem ∧ ∀ r, readReg r t = readReg r s

theorem SameData.resolve {s t : State} (h : SameData s t) (o : Operand) :
    resolve o t = Machine.resolve o s :=
  resolve_congr o h.2

theorem SameData.readOperand {s t : State} (h : SameData s t) (o : Operand) :
    readOperand o t = Machine.readOperand o s :=
  readOperand_congr o h.1 h.2

/-- From every state that agrees with `s` in the data, the operation ends in the same change. -/
def ChangesAlike (s : State) (op : State → Except Fault State) : Prop :=
  ∃ c : Change, ∀ t, SameData s t → complete t (op t) = .next (c.apply t)

section Alike

variable {s : State} {op op' : State → Except Fault State}

theorem ChangesAlike.of_ok (c : Change) (h : ∀ t, SameData s t → op t = .ok (c.apply t)) :
    ChangesAlike s op :=
  ⟨c, fun t ht => by rw [h t ht, complete_ok]⟩

theorem ChangesAlike.of_error (f : Fault) (h : ∀ t, SameData s t → op t = .error f) :
    ChangesAlike s op :=
  ⟨.raise f, fun t ht => by rw [h t ht, complete_error, Change.apply]⟩

theorem ChangesAlike.of_eq (h : ChangesAlike s op') (heq : ∀ t, SameData s t → op t = op' t) :
    ChangesAlike s op := by
  obtain ⟨c, hc⟩ := h
  exact ⟨c, fun t ht => by rw [heq t ht, hc t ht]⟩

theorem writeOperand_changesAlike (o : Operand) (v : Byte) (s : State) :
    ChangesAlike s (writeOperand o v) := by
  cases hr : resolve o s with
  | error f => exact .of_error f fun t ht => writeOperand_of_resolve_error ((ht.resolve o).trans hr) v
  | ok p =>
    have hwrite (t : State) (ht : SameData s t) : writeOperand o v t = writePlace p v t :=
      writeOperand_of_resolve ((ht.resolve o).trans hr) v
    cases p with
    | value c => exact .of_error .assignToConstant hwrite
    | register r => exact .of_ok (.writeReg r v) hwrite
    | cell a => exact .of_ok (.memWrite a v) hwrite

theorem binaryOp_changesAlike (f : Byte → Byte → Except Fault Byte) (src dest : Operand) (s : State) :
    ChangesAlike s (binaryOp f src dest) := by
  cases ha : readOperand src s with
  | error g => exact .of_error g fun t ht => binaryOp_src_error ((ht.readOperand src).trans ha)
  | ok a =>
    have hsrc (t : State) (ht : SameData s t) : readOperand src t = .ok a := (ht.readOperand src).trans ha
    cases hd : readOperand dest s with
    | error g =>
      exact .of_error g fun t ht => binaryOp_dest_error (hsrc t ht) ((ht.readOperand dest).trans hd)
    | ok d =>
      have hdest (t : State) (ht : SameData s t) : readOperand dest t = .ok d :=
        (ht.readOperand dest).trans hd
      cases hc : checkWritable dest with
      | error g => exact .of_error g fun t ht => binaryOp_not_writable (hsrc t ht) (hdest t ht) hc
      | ok u =>
        cases hr : f d a with
        | error g => exact .of_error g fun t ht => binaryOp_compute_error (hsrc t ht) (hdest t ht) hc hr
        | ok r =>
          exact (writeOperand_changesAlike dest r s).of_eq fun t ht =>
            binaryOp_ok (hsrc t ht) (hdest t ht) hc hr

theorem moveOp_changesAlike (src dest : Operand) (s : State) : ChangesAlike s (moveOp src dest) := by
  cases hr : readOperand src s with
  | error f => exact .of_error f fun t ht => moveOp_src_error ((ht.readOperand src).trans hr)
  | ok v =>
    exact (writeOperand_changesAlike dest v s).of_eq fun t ht => moveOp_ok ((ht.readOperand src).trans hr)

theorem printOp_changesAlike (src : Operand) (s : State) : ChangesAlike s (printOp src) := by
  cases hr : readOperand src s with
  | error f => exact .of_error f fun t ht => printOp_error ((ht.readOperand src).trans hr)
  | ok v => exact .of_ok (.emit v) fun t ht => printOp_ok ((ht.readOperand src).trans hr)

theorem jumpOp_changesAlike (src : Operand) (s : State) : ChangesAlike s (jumpOp src) := by
  cases hr : readOperand src s with
  | error f => exact .of_error f fun t ht => jumpOp_error ((ht.readOperand src).trans hr)
  | ok v => exact .of_ok (.setPc v) fun t ht => jumpOp_ok ((ht.readOperand src).trans hr)

end Alike

theorem exec_changesAlike (i : Instr) (s : State) :
    ∃ c : Change, ∀ t, SameData s t → exec i t = .next (c.apply t) := by
  cases i with
  | crash => exact ⟨.raise .explicitCrash, fun t _ => exec_crash t⟩
  | ifOp => exact ⟨.nothing, fun t _ => exec_ifOp t⟩
  | call => exact ⟨.nothing, fun t _ => exec_call t⟩
  | print src => exact printOp_changesAlike src s
  | jump src => exact jumpOp_changesAlike src s
  | move src dest => exact moveOp_changesAlike src dest s
  | add src dest => exact binaryOp_changesAlike aluAdd src dest s
  | sub src dest => exact binaryOp_changesAlike aluSub src dest s
  | mul src dest => exact binaryOp_changesAlike aluMul src dest s
  | div src dest => exact binaryOp_changesAlike aluDiv src dest s
  | mod src dest => exact binaryOp_changesAlike aluMod src dest s
  | cmp src dest => exact binaryOp_changesAlike aluCmp src dest s
  | and src dest => exact binaryOp_changesAlike aluAnd src dest s
  | or src dest => exact binaryOp_changesAlike aluOr src dest s

theorem fetch_congr {s t : State} (hmem : t.mem = s.mem) (hpc : t.pc = s.pc) : fetch t = fetch s := by
  simp only [fetch, memRead, hmem, hpc]

/-- A step makes the same change, in the advanced state, from every state with the same data and `pc`. -/
theorem stepWith_changesAlike (n : Numbering) (s : State) :
    ∃ c : Change, ∀ t, SameData s t → t.pc = s.pc → stepWith n t = .next (c.apply (advance t)) := by
  cases hd : decodeWith n (fetch s) with
  | ok i =>
    obtain ⟨c, hc⟩ := exec_changesAlike i (advance s)
    refine ⟨c, fun t ht hpc => ?_⟩
    have hdt : decodeWith n (fetch t) = .ok i := by rw [fetch_congr ht.1 hpc, hd]
    rw [stepWith_ok hdt]
    exact hc (advance t) ht
  | error e =>
    refine ⟨.raise (.unknownInstruction (fetch s).op s.pc), fun t ht hpc => ?_⟩
    have hdt : decodeWith n (fetch t) = .error e := by rw [fetch_congr ht.1 hpc, hd]
    rw [stepWith_error hdt, fetch_congr ht.1 hpc, hpc, Change.apply]

/-- Settles O37: the change an instruction makes does not depend on `pc`, and each change commutes with
replacing `pc`, but for the one that sets it (R15). -/
theorem noInstructionReadsPc : Obligations.NoInstructionReadsPc := by
  unfold Obligations.NoInstructionReadsPc
  intro i s t p h
  obtain ⟨c, hc⟩ := exec_changesAlike i s
  obtain rfl : c.apply s = t := Host.Outcome.next.inj ((hc s ⟨rfl, fun _ => rfl⟩).symm.trans h)
  refine ⟨_, hc { s with pc := p } ⟨rfl, fun _ => rfl⟩, ?_⟩
  cases c with
  | setPc v => exact ⟨rfl, rfl, rfl, rfl, rfl, rfl, .inr rfl⟩
  | nothing => exact ⟨rfl, rfl, rfl, rfl, rfl, rfl, .inl rfl⟩
  | raise f => exact ⟨rfl, rfl, rfl, rfl, rfl, rfl, .inl rfl⟩
  | emit v => exact ⟨rfl, rfl, rfl, rfl, rfl, rfl, .inl rfl⟩
  | writeReg r v => exact ⟨rfl, rfl, rfl, rfl, rfl, rfl, .inl rfl⟩
  | memWrite a v => exact ⟨rfl, rfl, rfl, rfl, rfl, rfl, .inl rfl⟩

/-- A state with another value in the eighth register. -/
def withReg7 (v : Byte) (s : State) : State := { s with regs := s.regs.set 7 v }

/-- No usable index reaches the eighth register (R13). -/
theorem sameData_withReg7 (v : Byte) (s : State) : SameData s (withReg7 v s) := by
  refine ⟨rfl, fun r => ?_⟩
  have hr : 7 ≠ r.val := by omega
  simp only [readReg_eq, withReg7, Vector.getElem_set_ne _ _ hr]

/-- Every change leaves the eighth register as it is given. -/
theorem Change.apply_withReg7 (c : Change) (v : Byte) (s : State) :
    c.apply (withReg7 v s) = withReg7 v (c.apply s) := by
  cases c with
  | writeReg r w =>
    have hr : 7 ≠ r.val := by omega
    simp only [Change.apply, withReg7, Machine.writeReg, Vector.set_comm _ _ hr]
  | nothing => rfl
  | raise f => rfl
  | emit w => rfl
  | setPc w => rfl
  | memWrite a w => rfl

/-- Settles O54: the step makes the same change whatever the eighth register holds, and the change commutes
with replacing it (R13). -/
theorem eighthRegisterIsInert : Obligations.EighthRegisterIsInert := by
  unfold Obligations.EighthRegisterIsInert
  intro n s t v h
  obtain ⟨c, hc⟩ := stepWith_changesAlike n s
  obtain rfl : c.apply (advance s) = t :=
    Host.Outcome.next.inj ((hc s ⟨rfl, fun _ => rfl⟩ rfl).symm.trans h)
  have hstep := hc (withReg7 v s) (sameData_withReg7 v s) rfl
  rw [show advance (withReg7 v s) = withReg7 v (advance s) from rfl, c.apply_withReg7] at hstep
  exact hstep

/-- Settles O55: the advance makes the two outputs the same, and from there both steps make the same change,
which no output and no history decides (R23). -/
theorem outputsAndHistoriesAreNeverRead : Obligations.OutputsAndHistoriesAreNeverRead := by
  unfold Obligations.OutputsAndHistoriesAreNeverRead
  intro n s₁ s₂ t₁ hmem hregs hpc h
  obtain ⟨c, hc⟩ := stepWith_changesAlike n s₁
  obtain rfl : c.apply (advance s₁) = t₁ :=
    Host.Outcome.next.inj ((hc s₁ ⟨rfl, fun _ => rfl⟩ rfl).symm.trans h)
  have hsame : SameData s₁ s₂ := ⟨hmem.symm, fun r => by rw [readReg_eq, readReg_eq, hregs]⟩
  refine ⟨_, hc s₂ hsame hpc.symm, ?_⟩
  cases c <;> simp [Change.apply, hmem, hregs, hpc]

end Sys2Proof.Machine
end

section
/-! Memory as data, the load, and the fetch: what each cell holds, and what the next step runs. -/

namespace Sys2Proof.Machine

open Claims (HasValue begun)

/-! The canonical form (log 17). -/

theorem Memory.wfFrom_cons {lo k : Nat} {w : Byte} {rest : Memory} :
    Memory.wfFrom lo ((k, w) :: rest) = true ↔
      lo ≤ k ∧ k < 256 ∧ w ≠ unlistedByte ∧ Memory.wfFrom (k + 1) rest = true := by
  simp only [Memory.wfFrom, Bool.and_eq_true, decide_eq_true_eq, and_assoc]

theorem Memory.lookup_cons_same (k : Nat) (w : Byte) (rest : Memory) :
    Memory.lookup ((k, w) :: rest) k = w := by
  rw [Memory.lookup, if_pos rfl]

theorem Memory.lookup_cons_ne {k a : Nat} (h : k ≠ a) (w : Byte) (rest : Memory) :
    Memory.lookup ((k, w) :: rest) a = Memory.lookup rest a := by
  rw [Memory.lookup, if_neg h]

/-- An address that a canonical memory lists reads a byte that no unlisted address does, so a canonical memory
that reads the same there cannot begin above it. -/
theorem Memory.le_of_lookup_ne {lo a : Nat} {m : Memory} (hw : Memory.wfFrom lo m = true)
    (h : Memory.lookup m a ≠ unlistedByte) : lo ≤ a :=
  Nat.le_of_not_lt fun hlt => h (Memory.lookup_below hw hlt)

/-- Canonical memories that read alike begin with the same cell, and their rests read alike. -/
theorem Memory.eq_of_lookup_eq {lo lo' : Nat} {m m' : Memory} (hw : Memory.wfFrom lo m = true)
    (hw' : Memory.wfFrom lo' m' = true)
    (h : ∀ a, a < 256 → Memory.lookup m a = Memory.lookup m' a) : m = m' := by
  induction m generalizing lo lo' m' with
  | nil =>
    cases m' with
    | nil => rfl
    | cons c' rest' =>
      obtain ⟨k', w'⟩ := c'
      obtain ⟨-, hk', hne', -⟩ := Memory.wfFrom_cons.mp hw'
      have hread := h k' hk'
      rw [Memory.lookup_cons_same] at hread
      exact absurd hread.symm hne'
  | cons c rest ih =>
    obtain ⟨k, w⟩ := c
    obtain ⟨-, hk, hne, hrest⟩ := Memory.wfFrom_cons.mp hw
    have hread := h k hk
    rw [Memory.lookup_cons_same] at hread
    cases m' with
    | nil => exact absurd hread hne
    | cons c' rest' =>
      obtain ⟨k', w'⟩ := c'
      obtain ⟨-, hk', hne', hrest'⟩ := Memory.wfFrom_cons.mp hw'
      have hread' := h k' hk'
      rw [Memory.lookup_cons_same] at hread'
      have hle : k ≤ k' := Memory.le_of_lookup_ne (Memory.wfFrom_cons.mpr ⟨le_rfl, hk, hne, hrest⟩)
        (hread' ▸ hne')
      have hle' : k' ≤ k := Memory.le_of_lookup_ne (Memory.wfFrom_cons.mpr ⟨le_rfl, hk', hne', hrest'⟩)
        (hread ▸ hne)
      obtain rfl : k = k' := le_antisymm hle hle'
      rw [Memory.lookup_cons_same] at hread
      rw [hread, ih hrest hrest' fun a ha => ?_]
      by_cases hka : a ≤ k
      · rw [Memory.lookup_below hrest (by omega), Memory.lookup_below hrest' (by omega)]
      · have hagree := h a ha
        rwa [Memory.lookup_cons_ne (by omega), Memory.lookup_cons_ne (by omega)] at hagree

/-- Settles O13: canonical memories that read alike at each of the 256 addresses are equal cell by cell. -/
theorem canonicalMemoriesWithEqualCellsAreEqual :
    Obligations.CanonicalMemoriesWithEqualCellsAreEqual := by
  unfold Obligations.CanonicalMemoriesWithEqualCellsAreEqual
  intro m m' hw hw' h
  refine Memory.eq_of_lookup_eq hw hw' fun a ha => ?_
  have hread := h (BitVec.ofNat 8 a)
  rwa [BitVec.toNat_ofNat, Nat.mod_eq_of_lt ha] at hread

/-! The load (R153). -/

/-- Bytes stored from `a` on are read back at their distance from `a`; an image of at most 256 bytes does not
come round to overwrite its own start. -/
theorem memRead_loadFrom (image : List Byte) (hlen : image.length ≤ 256) (a b : Byte) {s : State}
    (hw : Memory.wf s.mem = true) :
    memRead b (loadFrom a image s) = (image[(b - a).toNat]?).getD (memRead b s) := by
  induction image generalizing a s with
  | nil => rfl
  | cons v rest ih =>
    rw [List.length_cons] at hlen
    rw [loadFrom, ih (by omega) (a + 1) (memWrite_wf hw a v)]
    by_cases hb : b = a
    · subst hb
      have hround : (b - (b + 1)).toNat = 255 := by bv_omega
      have hstart : (b - b).toNat = 0 := by bv_omega
      rw [hround, hstart, List.getElem?_eq_none (by omega), List.getElem?_cons_zero,
        memRead_memWrite_same hw]
      rfl
    · have hnext : (b - a).toNat = (b - (a + 1)).toNat + 1 := by bv_omega
      rw [hnext, List.getElem?_cons_succ, memRead_memWrite_ne hb]

/-- Cell `a` after a load holds byte `a` of the image, if there is one (R153). -/
theorem memRead_load (image : List Byte) (a : Byte) {s : State} (hw : Memory.wf s.mem = true) :
    memRead a (load image s) = (image[a.toNat]?).getD (memRead a s) := by
  have hlen : (image.take 256).length ≤ 256 := List.length_take_le 256 image
  have hread := memRead_loadFrom (image.take 256) hlen 0 a hw
  rwa [sub_zero, List.getElem?_take_of_lt a.isLt] at hread

/-- Everything a load can change is memory (R153). -/
theorem load_eq (image : List Byte) (s : State) :
    load image s = { s with mem := (load image s).mem } :=
  loadFrom_eq _ 0 s

@[simp] theorem load_regs (image : List Byte) (s : State) : (load image s).regs = s.regs := by
  rw [load_eq]

@[simp] theorem load_pc (image : List Byte) (s : State) : (load image s).pc = s.pc := by
  rw [load_eq]

@[simp] theorem load_charOut (image : List Byte) (s : State) : (load image s).charOut = s.charOut := by
  rw [load_eq]

@[simp] theorem load_faultOut (image : List Byte) (s : State) :
    (load image s).faultOut = s.faultOut := by
  rw [load_eq]

@[simp] theorem load_emitted (image : List Byte) (s : State) : (load image s).emitted = s.emitted := by
  rw [load_eq]

@[simp] theorem load_faults (image : List Byte) (s : State) : (load image s).faults = s.faults := by
  rw [load_eq]

/-- Settles O10: each cell by its distance from the start of the image, every other field because a load is a
change of memory (R153). -/
theorem loadCopiesThePrefix : Obligations.LoadCopiesThePrefix := by
  unfold Obligations.LoadCopiesThePrefix
  intro image s hw
  refine ⟨fun a => ?_, load_regs image s, load_pc image s, load_charOut image s, load_faultOut image s,
    load_emitted image s, load_faults image s⟩
  rw [memRead_load image a hw]
  split
  · next h => rw [List.getElem?_eq_getElem h, Option.getD_some]
  · next h => rw [List.getElem?_eq_none (Nat.le_of_not_lt h), Option.getD_none]

theorem memRead_load_reset (image : List Byte) (a : Byte) :
    memRead a (load image State.reset) = image.getD a.toNat 0 := by
  rw [memRead_load image a Memory.wf_nil, memRead_reset, List.getD_eq_getElem?_getD]

/-- Settles O11: after reset every cell reads as the image does, padded with 0, and `pc` is 0 (R151, R152). -/
theorem bootFetchesTheImageStart : Obligations.BootFetchesTheImageStart := by
  unfold Obligations.BootFetchesTheImageStart
  intro n image s
  refine ⟨load image State.reset, rfl, load_pc image _, fun i => ?_, fun a ha => ?_, ?_⟩
  · simp only [load_regs, reset_regs_getElem]
  · rw [memRead_load_reset, List.getD_eq_default _ _ ha]
  · simp only [fetch, load_pc, reset_pc, memRead_load_reset]
    rfl

/-! The fetch (R81). -/

theorem memRead_add (s : State) (a b : Byte) :
    memRead (a + b) s = Memory.lookup s.mem ((a.toNat + b.toNat) % 256) := by
  rw [memRead, BitVec.toNat_add]

/-- Settles O39: the sum of `pc` and an offset is taken modulo 256 (D5), which changes nothing where the sum is
below 256. -/
theorem fetchReadsFiveCellsFromPc : Obligations.FetchReadsFiveCellsFromPc := by
  unfold Obligations.FetchReadsFiveCellsFromPc
  intro s
  have hwrap : fetch s = { op := Memory.lookup s.mem s.pc.toNat
                           mode1 := Memory.lookup s.mem ((s.pc.toNat + 1) % 256)
                           byte1 := Memory.lookup s.mem ((s.pc.toNat + 2) % 256)
                           mode2 := Memory.lookup s.mem ((s.pc.toNat + 3) % 256)
                           byte2 := Memory.lookup s.mem ((s.pc.toNat + 4) % 256) } := by
    simp only [fetch, memRead_add]
    rfl
  refine ⟨hwrap, fun htop => ?_⟩
  have hbelow (k : Nat) (hk : k ≤ 4) : (s.pc.toNat + k) % 256 = s.pc.toNat + k := by
    unfold FetchBelowTop at htop
    omega
  rw [hwrap, hbelow 1 (by omega), hbelow 2 (by omega), hbelow 3 (by omega), hbelow 4 (by omega)]

/-- A step whose fetched bytes decode runs the instruction in the state the statements call begun (R80). -/
theorem stepWith_of_decode {n : Numbering} {s : State} {i : Instr} (h : decodeWith n (fetch s) = .ok i) :
    stepWith n s = exec i (begun s) := by
  rw [stepWith_ok h, advance_eq_begun]

/-- A step that fetches the encoding of a well-formed instruction runs it. -/
theorem stepWith_of_encode {n : Numbering} {s : State} {i : Instr} (hn : n.Lawful) (hw : i.wf n = true)
    (h : fetch s = encodeWith n i) : stepWith n s = exec i (begun s) :=
  stepWith_of_decode (by rw [h, decodeOfEncodeIsIdentity n i hn hw])

/-- Settles O38: the step is the dispatch of what the fetched bytes decode to, and an encoding decodes to its
instruction (R80). -/
theorem stepRunsTheDecodedInstruction : Obligations.StepRunsTheDecodedInstruction :=
  ⟨fun _ _ => stepWith_of_decode, fun _ _ _ => stepWith_of_decode, fun _ _ _ => stepWith_of_encode⟩

/-- Settles O14: the bytes placed at `pc` are the bytes fetched, and they are an encoding (R40). -/
theorem instructionPlacedAtPcRunsNext : Obligations.InstructionPlacedAtPcRunsNext := by
  unfold Obligations.InstructionPlacedAtPcRunsNext
  intro n i s hn hwf hmem
  exact stepWith_of_encode hn hwf (fetch_placeWindow hmem _)

theorem hasValue_advance {o : Operand} {s : State} {v : Byte} :
    HasValue o (advance s) v ↔ HasValue o s v := by
  rw [← readOperand_eq_ok_iff_hasValue, readOperand_advance, readOperand_eq_ok_iff_hasValue]

/-- A MOVE to a cell leaves the advanced state with that cell written. -/
theorem stepWith_move_memC {n : Numbering} {s : State} {src : Operand} {v a : Byte}
    (hv : HasValue src s v) (hd : decodeWith n (fetch s) = .ok (.move src (.memC a))) :
    stepWith n s = .next (memWrite a v (advance s)) := by
  rw [stepWith_ok hd, exec_move_of_hasValue (hasValue_advance.mpr hv), writeOperand_memC, complete_ok]

/-- Settles O15: the written cell is read back, at `pc + 5` by the next fetch, and at the start address, where
the instruction that wrote it has run as fetched (R40, R41). -/
theorem storesReachTheNextFetch : Obligations.StoresReachTheNextFetch := by
  unfold Obligations.StoresReachTheNextFetch
  intro n s src v hw hv
  refine ⟨fun hd => ⟨_, stepWith_move_memC hv hd, ?_⟩, fun hd => ⟨_, stepWith_move_memC hv hd, ?_, ?_⟩⟩
  · exact memRead_memWrite_same (s := advance s) hw (s.pc + 5) v
  · exact memRead_memWrite_same (s := advance s) hw s.pc v
  · rw [memWrite_pc, advance_pc]

/-! Reading back a write (R73 to R75). -/

/-- An operand that names a register names it in every state. -/
theorem resolve_register {o : Operand} {s : State} {r : Fin 7} (h : resolve o s = .ok (.register r))
    (t : State) : resolve o t = .ok (.register r) := by
  cases o with
  | const b => cases h
  | memC b => cases h
  | unknown m b => cases h
  | reg b => exact h
  | memR b =>
    by_cases hb : b.toNat < 7
    · rw [resolve_memR hb] at h; cases h
    · rw [resolve_memR_bad (Nat.not_lt.mp hb)] at h; cases h

/-- Settles O18: a write leaves the operand's place as it was, a register by its index and a cell because no
register changed, and the place holds what was put in it (R73 to R75). -/
theorem writtenOperandReadsBack : Obligations.WrittenOperandReadsBack := by
  unfold Obligations.WrittenOperandReadsBack
  intro o v s t hw h
  rcases writeOperand_cases h with ⟨r, hr, rfl⟩ | ⟨a, hr, rfl⟩
  · rw [readOperand_of_resolve (resolve_register hr _), readPlace, readReg_writeReg_same]
  · have hsame : resolve o (memWrite a v s) = .ok (.cell a) :=
      (resolve_congr o fun i => readReg_memWrite i a v s).trans hr
    rw [readOperand_of_resolve hsame, readPlace, memRead_memWrite_same hw]

end Sys2Proof.Machine
end

section
/-! Runs: a jump to itself, and the record of faults along a run. -/

namespace Sys2Proof.Machine

/-! A jump to its own address (R110). -/

/-- The state with both outputs idle, which is all that a jump to itself leaves. -/
def idled (s : State) : State := { s with charOut := none, faultOut := none }

/-- The jump undoes the advance. -/
theorem stepWith_jump_self {n : Numbering} {s : State}
    (hd : decodeWith n (fetch s) = .ok (.jump (.const s.pc))) : stepWith n s = .next (idled s) := by
  rw [stepWith_ok hd, exec_jump, jumpOp_ok (readOperand_const s.pc (advance s)), complete_ok]
  rfl

/-- Settles O31: one step leads to the idle state, from which the same bytes are fetched at the same `pc`
(R110). -/
theorem jumpToSelfLoopsForever : Obligations.JumpToSelfLoopsForever := by
  unfold Obligations.JumpToSelfLoopsForever
  intro n s k hd
  have hmove : hostMove n .step s = .next (idled s) := stepWith_jump_self hd
  rw [List.replicate_succ, hostRun_cons hmove]
  have hstay : hostMove n .step (idled s) = .next (idled s) := stepWith_jump_self (s := idled s) hd
  induction k with
  | zero => exact hostRun_nil n _
  | succ k ih => rw [List.replicate_succ, hostRun_cons hstay, ih]

/-! The record of faults (R139, R165; log 3). -/

section Record

variable {n : Numbering} {s t : State} {m : HostMove} {moves : List HostMove}

/-- A move other than a reset leaves the record empty when it was, and a step shows no fault. -/
theorem faultFree_move_iff (hm : m ≠ .reset) (h : hostMove n m s = .next t) :
    FaultFree t ↔ FaultFree s ∧ (m = .step → t.faultOut = none) := by
  cases m with
  | reset => exact absurd rfl hm
  | load image => cases h; simp [FaultFree]
  | step =>
    obtain ⟨-, hfaults⟩ := stepWith_histories h
    simp [FaultFree, hfaults]

/-- A run without a reset ends with an empty record exactly when it began with one and was safe. -/
theorem faultFree_run_iff (hno : ∀ m ∈ moves, m ≠ .reset) (h : hostRun n moves s = .next t) :
    FaultFree t ↔ FaultFree s ∧ SafeRun n moves s := by
  induction moves generalizing s with
  | nil => cases h; simp
  | cons m rest ih =>
    obtain ⟨hm, hrest⟩ := List.forall_mem_cons.mp hno
    obtain ⟨u, hu⟩ := hostMove_answers n m s
    rw [hostRun_cons hu] at h
    have hcons : SafeRun n (m :: rest) s ↔ (m = .step → u.faultOut = none) ∧ SafeRun n rest u := by
      simp [safeRun_cons, hu]
    rw [ih hrest h, faultFree_move_iff hm hu, hcons, and_assoc]

theorem safeRun_of_append {more : List HostMove} (h : SafeRun n (moves ++ more) s) :
    SafeRun n moves s := by
  induction moves generalizing s with
  | nil => exact safeRun_nil n s
  | cons m rest ih =>
    obtain ⟨t, ht, hfault, hrest⟩ := safeRun_cons.mp h
    exact safeRun_cons.mpr ⟨t, ht, hfault, ih hrest⟩

end Record

/-- Settles O56: a first part by induction on it; the record by what each move other than a reset does to it,
applied to the whole run and to its later part (R139, R165). -/
theorem partsOfASafeRunAreSafe : Obligations.PartsOfASafeRunAreSafe := by
  refine ⟨fun n moves more s => safeRun_of_append, fun n moves s hs hno => ?_,
    fun n moves more s hno hrun => ?_⟩
  · obtain ⟨t, ht⟩ := hostRun_answers n moves s
    simp [ht, faultFree_run_iff hno ht, hs]
  · obtain ⟨t, ht, hfree⟩ := hrun
    obtain ⟨u, hu⟩ := hostRun_answers n moves s
    rw [hostRun_append hu] at ht
    exact ⟨u, hu, ((faultFree_run_iff hno ht).mp hfree).1⟩

end Sys2Proof.Machine
end
